-- ==== Sys2Proof/Word.lean ====
section
/-! DEFINITION. The word types of the block (R6, R9, R10): bytes, sextets, the packed value, the command and
result words, byte sequences, and the one arithmetic helper the length rules use. -/
namespace Sys2Proof

/-- An input byte or an output symbol byte, `BYTE_W` = 8 bits (R6). -/
abbrev Byte := BitVec 8

/-- A 6-bit sextet, an index into the alphabet, `SEXTET_W` = 6 bits (R6). -/
abbrev Sextet := BitVec 6

/-- The packed value V of a group, `V_W` = 24 bits (R6). -/
abbrev Packed := BitVec 24

/-- The group command word, exactly 26 bits (R61). -/
abbrev Gcw := BitVec 26

/-- The group result word, exactly 32 bits (R62). -/
abbrev Grw := BitVec 32

/-- A finite list of 8-bit values, element 0 first in input order (R10). -/
abbrev Bytes := List Byte

/-- `ceil(n / 3)` on natural numbers, which do not wrap (R10, R27). -/
def groupsOf (n : Nat) : Nat := (n + 2) / 3

end Sys2Proof
end

