-- ==== Sys2Proof/Config.lean ====
section
/-! DEFINITION. The parameters the source leaves open (R7). Each is plain data, fixed for a machine: the machine's
state carries them (`State.cfg`) and no step writes them, so a statement about every state is a statement about
every value of every parameter. -/
namespace Sys2Proof

/-- Where the input and the output byte space of one instance sit in a system memory (R7, R50, D17).
DESIGN CHOICE (log 21, unsafe): the spec calls the bases platform addresses and gives them no type and no width;
here an address is a natural number without an upper bound, so base plus index never wraps. -/
structure Placement where
  /-- `IN_BASE`: the address of `IN[0]`. -/
  inBase : Nat
  /-- `OUT_BASE`: the address of `OUT[0]`. -/
  outBase : Nat
deriving DecidableEq, Repr

/-- The implementation parameters of R7. -/
structure Config where
  /-- `MAX_INPUT_LEN`: the largest N that START accepts, `none` means unbounded (R7, D10). -/
  maxInputLen : Option Nat
  /-- `INSTANCES`: the number of independent encoder instances, at least 1 (R7, D22). -/
  instances : Nat
  /-- Entry k: where instance k's spaces are placed. An instance with no entry, or with the entry `none`, sits
  in no system memory (R7: "if they sit in one"). -/
  places : List (Option Placement)
deriving DecidableEq, Repr

/-- The parameter values `State.reset` uses: no input limit, one instance, no system memory.
DESIGN CHOICE (log 4, unsafe): the spec leaves all of them open. -/
def Config.default : Config := { maxInputLen := none, instances := 1, places := [] }

/-- Whether an input of `n` bytes is within `MAX_INPUT_LEN` (R111's precondition). -/
def Config.accepts (cfg : Config) (n : Nat) : Bool :=
  match cfg.maxInputLen with
  | none => true
  | some m => decide (n ≤ m)

end Sys2Proof
end

