-- ==== Sys2Proof/Syntax.lean ====
section
/-! DEFINITION. The operation set "BENC, version 1" (R1): one constructor per row of the opcode table. The four
group commands carry all three byte lanes of their command word, the don't-care lanes of R66 included, so that
nothing of a word is lost before the packer gates it (log 7). -/
namespace Sys2Proof

inductive Instr where
  /-- ENC3 b0, b1, b2: encode a full group (R101). -/
  | enc3 (b0 b1 b2 : Byte)
  /-- ENC2 b0, b1: encode a final group of two bytes; `x2` is the don't-care lane (R102, R66). -/
  | enc2 (b0 b1 x2 : Byte)
  /-- ENC1 b0: encode a final group of one byte; `x1` and `x2` are don't-care lanes (R103, R66). -/
  | enc1 (b0 x1 x2 : Byte)
  /-- ENC0: close a message with no remainder; all three lanes are don't-care (R104, R66). -/
  | enc0 (x0 x1 x2 : Byte)
  /-- START bytes: the host begins a message (R111). -/
  | start (bytes : Bytes)
  /-- STEP: the sequencer encodes the next group (R114). -/
  | step
  /-- READ: the host collects the output (R116). -/
  | read
  /-- ENCODE bytes: the pseudo-instruction, the group commands of `gcws(bytes)` (R70). -/
  | encode (bytes : Bytes)
deriving DecidableEq, Repr

/-- The group commands: the instructions that have a command word (R65). START, STEP, READ and ENCODE are
transactions or expansions, not words (R69, R70). -/
def Instr.isGroupCommand : Instr → Bool
  | .enc3 _ _ _ => true
  | .enc2 _ _ _ => true
  | .enc1 _ _ _ => true
  | .enc0 _ _ _ => true
  | .start _ => false
  | .step => false
  | .read => false
  | .encode _ => false

/-- The instruction as the assembler writes it: the don't-care lanes assembled as 0x00 (R68). -/
def Instr.canonical : Instr → Instr
  | .enc3 b0 b1 b2 => .enc3 b0 b1 b2
  | .enc2 b0 b1 _ => .enc2 b0 b1 0
  | .enc1 b0 _ _ => .enc1 b0 0 0
  | .enc0 _ _ _ => .enc0 0 0 0
  | .start bytes => .start bytes
  | .step => .step
  | .read => .read
  | .encode bytes => .encode bytes

end Sys2Proof
end

