-- ==== Sys2Proof/WellFormed.lean ====
section
/-! DEFINITION. What the spec asks of parameters and of an instruction before it may be issued. The spec calls no
group command and no operand byte illegal (R66), so the only check on an instruction is the input limit of R111. -/
namespace Sys2Proof

/-- R7: there is at least one instance. -/
def Config.wellFormed (cfg : Config) : Bool := decide (1 ≤ cfg.instances)

/-- An instruction that `cfg` gives a meaning: a START within `MAX_INPUT_LEN` (R111, R112), or any other. -/
def Instr.wellFormed (cfg : Config) : Instr → Bool
  | .enc3 _ _ _ => true
  | .enc2 _ _ _ => true
  | .enc1 _ _ _ => true
  | .enc0 _ _ _ => true
  | .start bytes => cfg.accepts bytes.length
  | .step => true
  | .read => true
  | .encode _ => true

/-- The assembler's form: every don't-care lane is 0x00 (R68). -/
def Instr.isCanonical (i : Instr) : Bool := decide (i.canonical = i)

end Sys2Proof
end

