-- ==== Sys2Proof/Decode.lean ====
section
/-! DEFINITION. Command words: the decoder and, after it, the encoder, both written from the format of R61 and the
opcode map of R65. Decoding is total: no GCW is illegal or reserved (R66), so there is nothing to reject, and a
container wider than 26 bits adds bits without meaning (R66). The transactions START, STEP and READ and the
pseudo-instruction ENCODE have no bit encoding (R69, R70), and the encoder answers `none` for them. Their text
forms are in Machine/Asm.lean. -/
namespace Sys2Proof

/-- The count field `n` = GCW[25:24] (R61). -/
def countField (w : Gcw) : BitVec 2 := w.extractLsb' 24 2

/-- The field `b0` = GCW[23:16] (R61). -/
def byteField0 (w : Gcw) : Byte := w.extractLsb' 16 8

/-- The field `b1` = GCW[15:8] (R61). -/
def byteField1 (w : Gcw) : Byte := w.extractLsb' 8 8

/-- The field `b2` = GCW[7:0] (R61). -/
def byteField2 (w : Gcw) : Byte := w.extractLsb' 0 8

/-- The instruction of a command word. The field `n` alone selects the command (R65). -/
def decode (w : Gcw) : Instr :=
  if countField w = 3 then .enc3 (byteField0 w) (byteField1 w) (byteField2 w)
  else if countField w = 2 then .enc2 (byteField0 w) (byteField1 w) (byteField2 w)
  else if countField w = 1 then .enc1 (byteField0 w) (byteField1 w) (byteField2 w)
  else .enc0 (byteField0 w) (byteField1 w) (byteField2 w)

/-- The command word in a container of `nbits` bits holding `w`: bits above `nbits` are 0, and bits above 25 have
no meaning (R66). -/
def gcwOfContainer (nbits w : Nat) : Gcw := BitVec.ofNat 26 (w % 2 ^ nbits)

/-- The instruction this decoder reads from the opcode table's word `w` of `nbits` bits; it refuses none (R66). -/
def decodeTableWord (nbits w : Nat) : Option Instr := some (decode (gcwOfContainer nbits w))

/-- A command word from its fields: `n` at 25:24, `b0` at 23:16, `b1` at 15:8, `b2` at 7:0 (R61). -/
def gcw (n : BitVec 2) (b0 b1 b2 : Byte) : Gcw := n ++ b0 ++ b1 ++ b2

/-- The command word of an instruction, `none` where it has no bit encoding (R65, R69, R70). -/
def encode : Instr → Option Gcw
  | .enc3 b0 b1 b2 => some (gcw 3 b0 b1 b2)
  | .enc2 b0 b1 x2 => some (gcw 2 b0 b1 x2)
  | .enc1 b0 x1 x2 => some (gcw 1 b0 x1 x2)
  | .enc0 x0 x1 x2 => some (gcw 0 x0 x1 x2)
  | .start _ => none
  | .step => none
  | .read => none
  | .encode _ => none

end Sys2Proof
end

