-- ==== Sys2Proof/Machine/State.lean ====
section
/-! DEFINITION. The machine's state: the sequencer record of every instance (R24, R34), the parameters (R7), and
the model's own three fields (which agent moves, what the outside does, what the last transition answered). -/
namespace Sys2Proof.Machine

/-- The sequencer phase (R25). It has three values: 0b11 is never produced (R69, I11). -/
inductive Phase where
  /-- No message has been started since reset. -/
  | idle
  /-- A message is being encoded; STEP is enabled. -/
  | busy
  /-- The message is complete; OUT holds its whole encoding. -/
  | done
deriving DecidableEq, Repr

/-- The whole mutable state of one encoder instance (R24). -/
structure SeqState where
  /-- The sequencer phase (R25). -/
  phase : Phase
  /-- `IN`: the input byte space; N is its length (R41). -/
  inp : Bytes
  /-- `pos`: input bytes consumed so far, a natural number that does not wrap (R26, R27). -/
  pos : Nat
  /-- `OUT`: the output byte space written so far (R42). -/
  out : Bytes
deriving DecidableEq, Repr

/-- The reset values of R33. -/
def SeqState.reset : SeqState := { phase := .idle, inp := [], pos := 0, out := [] }

/-- A group result word with its three side outputs (R62). -/
structure GroupResult where
  grw : Grw
  /-- Bytes of the GRW that are appended to OUT. -/
  nout : BitVec 3
  /-- Data symbols at the front of the GRW. -/
  ndata : BitVec 3
  /-- PAD bytes after the data symbols. -/
  npad : BitVec 2
deriving DecidableEq, Repr

/-- What one STEP decides before the datapath runs: the word it issues, and the next `pos` and `phase` (R114). -/
structure Issue where
  word : Gcw
  pos : Nat
  phase : Phase
deriving DecidableEq, Repr

/-- What the last transition returned to the agent that made it. The MODEL's own record (log 3): it is no state of
the block (R30, R32), and nothing reads it. -/
inductive Response where
  /-- Nothing was returned (START, reset, or no transition yet). -/
  | nothing
  /-- The word of the one group transaction the step was, and its result (R8, R60). -/
  | group (word : Gcw) (result : GroupResult)
  /-- The OUT bytes a READ returned (R116). -/
  | output (bytes : Bytes)
deriving DecidableEq, Repr

/-- One move of an agent on one instance (R110, R107). -/
inductive Move where
  /-- A harness drives a command word on the group port (R107). -/
  | port (w : Gcw)
  /-- The host issues START (R111). -/
  | start (bytes : Bytes)
  /-- The sequencer takes its STEP (R114). -/
  | seqStep
  /-- The host issues READ (R116). -/
  | read
  /-- A harness issues the commands of ENCODE, one a step (R70, R8). -/
  | encode (bytes : Bytes)
deriving DecidableEq, Repr

/-- One entry of the agenda: what happens next (log 1). -/
inductive Tick where
  /-- Reset is applied. A transaction pending at that moment is overridden (R134, R150). -/
  | reset (pending : Option (Nat × Move))
  /-- An agent of instance `k` moves. -/
  | move (k : Nat) (m : Move)
deriving DecidableEq, Repr

/-- The machine: the spec's state of every instance, its parameters, and the model's own fields. -/
structure State where
  /-- The parameters of R7. No step writes them. -/
  cfg : Config
  /-- Entry k is instance k's sequencer state (R34). -/
  insts : List SeqState
  /-- The MODEL's: the instance whose agent makes this transition (log 14). -/
  sel : Nat
  /-- The MODEL's: what the outside does, and which agent moves, in order (log 1). -/
  agenda : List Tick
  /-- The MODEL's: what the last transition returned (log 3). -/
  resp : Response
deriving DecidableEq, Repr

/-- Why the machine stops with a fault. The spec has none: "There is no fault outcome and no stuck outcome"
(R131, R130), so this type has no constructor. -/
inductive Fault where
deriving DecidableEq, Repr

/-- Why a transition has no meaning. -/
inductive Refusal where
  /-- Raised by exec's arm of an instruction without a meaning; no arm of this model raises it. Safe. -/
  | notModelled (mnemonic : String)
  /-- REFUSE_TOO_LONG, raised by START when its input is longer than `MAX_INPUT_LEN` (R112, R131). Safe: nothing can
  be proved of such an input. -/
  | tooLong
  /-- Raised by START in BUSY: "is not a transaction of the model: the host has no such move" (R113). Safe. -/
  | startWhileBusy
  /-- Raised by READ in IDLE or BUSY: "is not a transaction: the host has no such move" (R116). Safe. -/
  | readOutsideDone
  /-- Raised by STEP in IDLE or DONE, where it is not enabled (R114, R117). Safe. -/
  | stepOutsideBusy
  /-- Raised by any transaction addressed to an instance number that is not below `INSTANCES` (R7). Safe. -/
  | noSuchInstance
deriving DecidableEq, Repr

/-- The machine right after reset, for every value of the parameters: each instance at the values of R33, nothing
pending and nothing answered. -/
def State.resetWith (cfg : Config) : State :=
  { cfg := cfg, insts := List.replicate cfg.instances SeqState.reset, sel := 0, agenda := [], resp := .nothing }

/-- The machine right after reset (R33, R150) with the parameter values of `Config.default` (log 4). -/
def State.reset : State := State.resetWith Config.default

end Sys2Proof.Machine
end

