-- ==== Sys2Proof/Machine/Lut.lean ====
section
/-! DEFINITION. The `alphabet_lut` sub-block (R80 to R84) and the padding constant (R23). Both are constants: no
command, host action or reset writes them (R22, R84). The byte codes are the table of R80 (log 20). -/
namespace Sys2Proof.Machine

/-- `PAD` = 0x3D, the byte `=` (R23). -/
def pad : Byte := 0x3D

/-- LUT: the symbol of a sextet, by the ranges of R80's pseudocode. -/
def lut (s : Sextet) : Byte :=
  if s ≤ 25 then 0x41 + s.setWidth 8
  else if s ≤ 51 then 0x61 + (s - 26).setWidth 8
  else if s ≤ 61 then 0x30 + (s - 52).setWidth 8
  else if s = 62 then 0x2D
  else 0x5F

/-- `ALPHABET`, the ROM table of 64 entries as R80's table lists them (R22). -/
def alphabet : Bytes :=
  [0x41, 0x42, 0x43, 0x44, 0x45, 0x46, 0x47, 0x48, 0x49, 0x4A, 0x4B, 0x4C, 0x4D, 0x4E, 0x4F, 0x50]
  ++ [0x51, 0x52, 0x53, 0x54, 0x55, 0x56, 0x57, 0x58, 0x59, 0x5A, 0x61, 0x62, 0x63, 0x64, 0x65, 0x66]
  ++ [0x67, 0x68, 0x69, 0x6A, 0x6B, 0x6C, 0x6D, 0x6E, 0x6F, 0x70, 0x71, 0x72, 0x73, 0x74, 0x75, 0x76]
  ++ [0x77, 0x78, 0x79, 0x7A, 0x30, 0x31, 0x32, 0x33, 0x34, 0x35, 0x36, 0x37, 0x38, 0x39, 0x2D, 0x5F]

end Sys2Proof.Machine
end

