-- ==== Sys2Proof/Machine/Operands.lean ====
section
/-! DEFINITION. Operand assembly of the `3b_to_4s_packer` (R63, R64, R90): the gating of the lanes that are not
valid, the packed value V and its four sextets. -/
namespace Sys2Proof.Machine

/-- The lane `b0'`: b0 when n ≥ 1, else 0x00 (R63). -/
def lane0 (n : BitVec 2) (b0 : Byte) : Byte := if 1 ≤ n then b0 else 0

/-- The lane `b1'`: b1 when n ≥ 2, else 0x00 (R63). -/
def lane1 (n : BitVec 2) (b1 : Byte) : Byte := if 2 ≤ n then b1 else 0

/-- The lane `b2'`: b2 when n = 3, else 0x00 (R63). -/
def lane2 (n : BitVec 2) (b2 : Byte) : Byte := if n = 3 then b2 else 0

/-- The packed value V: the gated lanes, b0' most significant (R63, R90). -/
def packed (n : BitVec 2) (b0 b1 b2 : Byte) : Packed := lane0 n b0 ++ lane1 n b1 ++ lane2 n b2

/-- `s0 = V[23:18]` (R64). -/
def sextet0 (v : Packed) : Sextet := v.extractLsb' 18 6

/-- `s1 = V[17:12]` (R64). -/
def sextet1 (v : Packed) : Sextet := v.extractLsb' 12 6

/-- `s2 = V[11:6]` (R64). -/
def sextet2 (v : Packed) : Sextet := v.extractLsb' 6 6

/-- `s3 = V[5:0]` (R64). -/
def sextet3 (v : Packed) : Sextet := v.extractLsb' 0 6

end Sys2Proof.Machine
end

