-- ==== Sys2Proof/Machine/Flags.lean ====
section
/-! DEFINITION. The block has no flags and no condition codes (R30). What stands here in their place are the three
side outputs of a group transaction (R62): they are part of that transaction's result and are stored nowhere. -/
namespace Sys2Proof.Machine

/-- `ndata`: 0, 2, 3 or 4 data sextets for n = 0, 1, 2 or 3 (R94). -/
def ndataOf (n : BitVec 2) : BitVec 3 :=
  if n = 3 then 4 else if n = 2 then 3 else if n = 1 then 2 else 0

/-- `nout`: 4 when n ≠ 0, and 0 when n = 0 (R62, R100). -/
def noutOf (n : BitVec 2) : BitVec 3 := if n = 0 then 0 else 4

/-- `npad` = nout - ndata (R100), in its 2 bits (R62). -/
def npadOf (n : BitVec 2) : BitVec 2 := (noutOf n - ndataOf n).setWidth 2

end Sys2Proof.Machine
end

