-- ==== Sys2Proof/Machine/Ops.lean ====
section
/-! DEFINITION. The named operations the meanings share: the byte spaces (R11), the datapath PACK and GROUP
(R90, R100), the selected instance, the response, reset (R150), the host's view (R140) and the choice of what
happens next. There is no exception to take and none to return from (R130, R135, R136): the operation the layers
otherwise share for that does not exist here. -/
namespace Sys2Proof.Machine

/-! ### The byte spaces -/

/-- `MemRead(IN, i, 1)`: byte i of a byte space, defined only below its length (R11, R45). -/
def memRead (space : Bytes) (i : Nat) : Option Byte := space[i]?

/-- `emit(OUT, b)`: append one byte, the only write primitive (R11, R42). -/
def emit (out : Bytes) (b : Byte) : Bytes := out ++ [b]

/-! ### The group datapath -/

/-- PACK: the four sextets of a group, in order, and `ndata` (R90). -/
def pack (n : BitVec 2) (b0 b1 b2 : Byte) : (Sextet × Sextet × Sextet × Sextet) × BitVec 3 :=
  let v := packed n b0 b1 b2
  ((sextet0 v, sextet1 v, sextet2 v, sextet3 v), ndataOf n)

/-- The padding multiplexer: lane k is a data symbol when k < ndata, else PAD when n ≠ 0, else 0x00 (R100). -/
def symbol (n : BitVec 2) (k : BitVec 3) (s : Sextet) : Byte :=
  if k < ndataOf n then lut s else if n ≠ 0 then pad else 0

/-- GROUP: the result word and side outputs of a command word, a function of the word alone (R100, R105). -/
def group (w : Gcw) : GroupResult :=
  let n := countField w
  let p := pack n (byteField0 w) (byteField1 w) (byteField2 w)
  { grw := symbol n 0 p.1.1 ++ symbol n 1 p.1.2.1 ++ symbol n 2 p.1.2.2.1 ++ symbol n 3 p.1.2.2.2
    nout := noutOf n
    ndata := p.2
    npad := npadOf n }

/-- The four lanes c0, c1, c2, c3 of a result word, c0 first: GRW[31-8k : 24-8k] (R62, R114). -/
def lanes (r : Grw) : Bytes :=
  [r.extractLsb' 24 8, r.extractLsb' 16 8, r.extractLsb' 8 8, r.extractLsb' 0 8]

/-- `emitted`: the first `nout` lanes of a result, c0 first (R118). -/
def emitted (r : GroupResult) : Bytes := (lanes r.grw).take r.nout.toNat

/-- The emits of one STEP: the emitted lanes are appended one byte at a time, c0 first (R114). -/
def emitAll (out : Bytes) (r : GroupResult) : Bytes := (emitted r).foldl emit out

/-! ### The selected instance -/

/-- Runs a transaction on the selected instance's sequencer state. A transaction addressed to an instance that
does not exist is refused by name (R7, log 14). -/
def onInst (s : State) (f : SeqState → Host.Outcome State Fault Refusal) : Host.Outcome State Fault Refusal :=
  match s.insts[s.sel]? with
  | none => .refused .noSuchInstance
  | some c => f c

/-- The selected instance's sequencer state becomes `c`; no other instance is touched (R34). -/
def State.setInst (s : State) (c : SeqState) : State := { s with insts := s.insts.set s.sel c }

/-- The transition's answer to its agent (log 3). -/
def State.respond (s : State) (r : Response) : State := { s with resp := r }

/-- What the selected instance's agent does before anything else on the agenda (log 10). -/
def State.defer (s : State) (m : Move) : State := { s with agenda := .move s.sel m :: s.agenda }

/-- One group transaction: a command word passes over the group port and GROUP answers it (R8). It changes no state
of the block (R105), whatever the phase. -/
def groupPort (w : Gcw) (s : State) : Host.Outcome State Fault Refusal :=
  onInst s fun _ => .next (s.respond (.group w (group w)))

/-! ### Reset and the host's view -/

/-- Reset: every instance to the values of R33; the parameters and the constants are not touched (R150). -/
def State.applyReset (s : State) : State :=
  { s with insts := s.insts.map fun _ => SeqState.reset, resp := .nothing }

/-- The 2-bit encoding of the phase output (R69). -/
def phaseBits : Phase → BitVec 2
  | .idle => 0b00
  | .busy => 0b01
  | .done => 0b10

/-- All a host can observe of an instance: the phase output and, in DONE, OUT (R140, R53). -/
def hostView (c : SeqState) : BitVec 2 × Option Bytes :=
  (phaseBits c.phase, if c.phase = .done then some c.out else none)

/-! ### What happens next -/

/-- The instruction of a move. A word on the group port is decoded; the other moves are transactions without a
word (R69). -/
def fetchInstr : Move → Instr
  | .port w => decode w
  | .start bytes => .start bytes
  | .seqStep => .step
  | .read => .read
  | .encode bytes => .encode bytes

/-- The lowest-numbered instance whose sequencer is BUSY. -/
def firstBusy (insts : List SeqState) : Option Nat := insts.findIdx? fun c => c.phase = .busy

/-- What the machine does next: run an instruction in a state, or settle in a state without running one. -/
inductive Fetched where
  | run (i : Instr) (s : State)
  | settle (s : State)
deriving DecidableEq, Repr

/-- The next thing to happen: the head of the agenda, taken off it; with nothing on the agenda, the STEP of the
first BUSY sequencer (R159), and with none BUSY the machine waits (R152). -/
def fetch (s : State) : Fetched :=
  match s.agenda with
  | .reset _ :: rest => .settle ({ s with agenda := rest } : State).applyReset
  | .move k m :: rest => .run (fetchInstr m) { s with agenda := rest, sel := k }
  | [] =>
    match firstBusy s.insts with
    | some k => .run .step { s with sel := k }
    | none => .settle s

/-- `s` with the container word `w` of `nbits` bits driven on instance 0's group port as the next thing to
happen (R107). -/
def State.driveWord (s : State) (nbits w : Nat) : State :=
  { s with agenda := .move 0 (.port (gcwOfContainer nbits w)) :: s.agenda }

end Sys2Proof.Machine
end

