-- ==== Sys2Proof/Machine/Group.lean ====
section
/-! DEFINITION. The group commands ENC3, ENC2, ENC1, ENC0 (R101 to R104) driven on the group port (R107), and the
list of commands a message takes (R70). Each command is one transaction of the port with a word of R61. -/
namespace Sys2Proof.Machine

/-- ENC3 b0, b1, b2 (R101). -/
def execEnc3 (b0 b1 b2 : Byte) (s : State) : Host.Outcome State Fault Refusal := groupPort (gcw 3 b0 b1 b2) s

/-- ENC2 b0, b1, whatever the lane b2 holds (R102). -/
def execEnc2 (b0 b1 x2 : Byte) (s : State) : Host.Outcome State Fault Refusal := groupPort (gcw 2 b0 b1 x2) s

/-- ENC1 b0, whatever the lanes b1 and b2 hold (R103). -/
def execEnc1 (b0 x1 x2 : Byte) (s : State) : Host.Outcome State Fault Refusal := groupPort (gcw 1 b0 x1 x2) s

/-- ENC0, whatever the lanes hold (R104). -/
def execEnc0 (x0 x1 x2 : Byte) (s : State) : Host.Outcome State Fault Refusal := groupPort (gcw 0 x0 x1 x2) s

/-- `gcws(IN)`: the group commands the sequencer issues for an input, in order, don't-care lanes 0x00 (R70, R68). -/
def gcws : Bytes → List Gcw
  | b0 :: b1 :: b2 :: t => gcw 3 b0 b1 b2 :: gcws t
  | [b0, b1] => [gcw 2 b0 b1 0]
  | [b0] => [gcw 1 b0 0 0]
  | [] => [gcw 0 0 0 0]

end Sys2Proof.Machine
end

