-- ==== Sys2Proof/Machine/Message.lean ====
section
/-! DEFINITION. The message transactions START, STEP and READ (R110 to R117), the pseudo-instruction ENCODE, which
issues the words STEP would (R70), and the reference function `encode` of a whole message (R118). -/
namespace Sys2Proof.Machine

/-- START's effect on the sequencer record: a message over `bytes` begins (R111). -/
def beginMessage (bytes : Bytes) : SeqState := { phase := .busy, inp := bytes, pos := 0, out := [] }

/-- START bytes: begins a message in IDLE or DONE (R111); refused in BUSY (R113) and over `MAX_INPUT_LEN` (R112). -/
def execStart (bytes : Bytes) (s : State) : Host.Outcome State Fault Refusal :=
  onInst s fun c =>
    if c.phase = .busy then .refused .startWhileBusy
    else if s.cfg.accepts bytes.length then .next ((s.setInst (beginMessage bytes)).respond .nothing)
    else .refused .tooLong

/-- What a STEP issues: the word of the bytes that remain from `pos` on, and the next `pos` and `phase`. The four
cases are those of r = N - pos: three or more, two, one, none (R114). No byte at or above N is read (R45). -/
def issue (c : SeqState) : Issue :=
  match c.inp.drop c.pos with
  | b0 :: b1 :: b2 :: _ => { word := gcw 3 b0 b1 b2, pos := c.pos + 3, phase := .busy }
  | [b0, b1] => { word := gcw 2 b0 b1 0, pos := c.inp.length, phase := .done }
  | [b0] => { word := gcw 1 b0 0 0, pos := c.inp.length, phase := .done }
  | [] => { word := gcw 0 0 0 0, pos := c.pos, phase := .done }

/-- The sequencer record after one STEP (R114). -/
def advance (c : SeqState) : SeqState :=
  { c with
    phase := (issue c).phase
    pos := (issue c).pos
    out := emitAll c.out (group (issue c).word) }

/-- STEP: in BUSY, encodes the next group as one atomic transition (R114, R48); not enabled otherwise (R117). -/
def execStep (s : State) : Host.Outcome State Fault Refusal :=
  onInst s fun c =>
    if c.phase = .busy then
      .next ((s.setInst (advance c)).respond (.group (issue c).word (group (issue c).word)))
    else .refused .stepOutsideBusy

/-- READ: in DONE, returns OUT and changes no state of the block (R116). -/
def execRead (s : State) : Host.Outcome State Fault Refusal :=
  onInst s fun c =>
    if c.phase = .done then .next (s.respond (.output c.out)) else .refused .readOutsideDone

/-- What ENCODE leaves to later steps: after an ENC3, the ENCODE of the bytes that remain, next on the agenda; after
the closing command, nothing (R70, log 10). -/
def State.encodeRest (s : State) (bytes : Bytes) : State :=
  if (issue (beginMessage bytes)).phase = .busy then s.defer (.encode (bytes.drop 3)) else s

/-- ENCODE bytes: the first command the sequencer would issue for `bytes`, as one group transaction (R70, R8); the
commands that follow it are the next steps. No sequencer state is touched. -/
def execEncode (bytes : Bytes) (s : State) : Host.Outcome State Fault Refusal :=
  groupPort (issue (beginMessage bytes)).word (s.encodeRest bytes)

/-- The reference function `encode` on whole messages (R118). -/
def encodeBytes : Bytes → Bytes
  | b0 :: b1 :: b2 :: t => emitted (group (gcw 3 b0 b1 b2)) ++ encodeBytes t
  | [b0, b1] => emitted (group (gcw 2 b0 b1 0))
  | [b0] => emitted (group (gcw 1 b0 0 0))
  | [] => []

end Sys2Proof.Machine
end

