-- ==== Sys2Proof/Machine/Dispatch.lean ====
section
/-! DEFINITION. One arm per constructor of Instr, each one call of its meaning. -/
namespace Sys2Proof.Machine

def exec (i : Instr) (s : State) : Host.Outcome State Fault Refusal :=
  match i with
  | .enc3 b0 b1 b2 => Sys2Proof.Machine.execEnc3 b0 b1 b2 s
  | .enc2 b0 b1 x2 => Sys2Proof.Machine.execEnc2 b0 b1 x2 s
  | .enc1 b0 x1 x2 => Sys2Proof.Machine.execEnc1 b0 x1 x2 s
  | .enc0 x0 x1 x2 => Sys2Proof.Machine.execEnc0 x0 x1 x2 s
  | .start bytes => Sys2Proof.Machine.execStart bytes s
  | .step => Sys2Proof.Machine.execStep s
  | .read => Sys2Proof.Machine.execRead s
  | .encode bytes => Sys2Proof.Machine.execEncode bytes s

end Sys2Proof.Machine
end

