-- ==== Sys2Proof/Machine/Step.lean ====
section
/-! DEFINITION. One step of the machine: what `fetch` says happens next, run or settled. -/
namespace Sys2Proof.Machine

/-- One step (R8: one whole group transaction, or one host command, or a reset, or waiting). -/
def step (s : State) : Host.Outcome State Fault Refusal :=
  match fetch s with
  | .run i s' => exec i s'
  | .settle s' => .next s'

/-- `s` with the table word `w` of `nbits` bits as what `step` fetches next (log 13). -/
def State.withFetchWord (s : State) (nbits w : Nat) : State := s.driveWord nbits w

end Sys2Proof.Machine
end

