-- ==== Sys2Proof/Machine/Asm.lean ====
section
/-! DEFINITION. The assembler's text (R68, R69, R70): one line to an instruction, and an instruction to its text.
Text that is none of the forms is rejected by name. Where R68 leaves the lexical detail open, log 16 says what is
taken. STEP is internal and is written by nobody, so it has no text. -/
namespace Sys2Proof.Machine

/-- Why a line is rejected. -/
inductive AsmError where
  /-- A character that starts no token, or a character that is not printable ASCII inside quotes. -/
  | badCharacter
  /-- A quote that is not closed. -/
  | openQuote
  /-- An operand that is no byte literal 0x00..0xFF, 0..255 or quoted character. -/
  | notAByte
  /-- Operands that are not the mnemonic's (their number, a separator, a bracket). -/
  | badOperands
  /-- The line starts with no mnemonic that is written in text. -/
  | unknownMnemonic
deriving DecidableEq, Repr

inductive Token where
  | word (cs : List Char)
  | quoted (c : Char)
  | text (cs : List Char)
  | comma
  | lbrack
  | rbrack
deriving DecidableEq, Repr

/-- The apostrophe, code 0x27. -/
def apostrophe : Char := Char.ofNat 0x27

/-- The double quote, code 0x22. -/
def doubleQuote : Char := Char.ofNat 0x22

/-- The quoted character and what follows it, after its opening apostrophe (R68). -/
def takeQuoted : List Char → Option (Char × List Char)
  | q :: e :: rest => if e = apostrophe then some (q, rest) else none
  | _ => none

/-- The characters of a string and what follows it, after its opening double quote (R69). -/
def takeText (cs : List Char) : Option (List Char × List Char) :=
  match cs.dropWhile fun d => d ≠ doubleQuote with
  | [] => none
  | _ :: rest => some (cs.takeWhile fun d => d ≠ doubleQuote, rest)

/-- The tokens of a line; a comment runs from `;` to the end of the line (R68). Every call takes at least one
character, so the line's length is fuel enough. -/
def lexFuel : Nat → List Char → Except AsmError (List Token)
  | 0, _ => .ok []
  | _ + 1, [] => .ok []
  | fuel + 1, c :: cs =>
    if c = ';' then .ok []
    else if c = ' ' ∨ c = Char.ofNat 9 then lexFuel fuel cs
    else if c = ',' then (lexFuel fuel cs).map fun ts => .comma :: ts
    else if c = '[' then (lexFuel fuel cs).map fun ts => .lbrack :: ts
    else if c = ']' then (lexFuel fuel cs).map fun ts => .rbrack :: ts
    else if c = doubleQuote then
      match takeText cs with
      | none => .error .openQuote
      | some (txt, rest) => (lexFuel fuel rest).map fun ts => .text txt :: ts
    else if c = apostrophe then
      match takeQuoted cs with
      | none => .error .openQuote
      | some (q, rest) => (lexFuel fuel rest).map fun ts => .quoted q :: ts
    else if c.isAlphanum then
      (lexFuel fuel (cs.dropWhile Char.isAlphanum)).map fun ts => .word (c :: cs.takeWhile Char.isAlphanum) :: ts
    else .error .badCharacter

/-- The tokens of a line. -/
def lex (line : List Char) : Except AsmError (List Token) := lexFuel line.length line

/-- The byte of a printable ASCII character, its code (R68). -/
def asciiByte (c : Char) : Except AsmError Byte :=
  if 0x20 ≤ c.toNat ∧ c.toNat ≤ 0x7E then .ok (BitVec.ofNat 8 c.toNat) else .error .badCharacter

/-- The value of a hex digit. -/
def hexValue (c : Char) : Option Nat :=
  if '0' ≤ c ∧ c ≤ '9' then some (c.toNat - 0x30)
  else if 'A' ≤ c ∧ c ≤ 'F' then some (c.toNat - 0x37)
  else if 'a' ≤ c ∧ c ≤ 'f' then some (c.toNat - 0x57)
  else none

/-- The value of a row of decimal digits, the most significant first. -/
def decimalValue (acc : Nat) : List Char → Option Nat
  | [] => some acc
  | c :: cs => if '0' ≤ c ∧ c ≤ '9' then decimalValue (acc * 10 + (c.toNat - 0x30)) cs else none

/-- `<byte>`: a hex literal `0x00`..`0xFF`, a decimal literal `0`..`255`, or a quoted character (R68). -/
def parseByte : Token → Except AsmError Byte
  | .word ['0', 'x', hi, lo] =>
    match hexValue hi, hexValue lo with
    | some h, some l => .ok (BitVec.ofNat 8 (h * 16 + l))
    | _, _ => .error .notAByte
  | .word cs =>
    match decimalValue 0 cs with
    | some v => if v ≤ 255 then .ok (BitVec.ofNat 8 v) else .error .notAByte
    | none => .error .notAByte
  | .quoted c => asciiByte c
  | .text _ => .error .notAByte
  | .comma => .error .notAByte
  | .lbrack => .error .notAByte
  | .rbrack => .error .notAByte

/-- Byte literals separated by commas. -/
def byteList : List Token → Except AsmError Bytes
  | [] => .ok []
  | [t] => (parseByte t).map fun b => [b]
  | t :: sep :: next :: rest =>
    if sep = .comma then
      match parseByte t, byteList (next :: rest) with
      | .ok b, .ok bs => .ok (b :: bs)
      | .error e, _ => .error e
      | _, .error e => .error e
    else .error .badOperands
  | _ => .error .badOperands

/-- `<bytes>`: a double-quoted ASCII string, or a bracketed list of byte literals (R69). -/
def bytesOperand : List Token → Except AsmError Bytes
  | [.text cs] => cs.mapM asciiByte
  | .lbrack :: rest => if rest.getLast? = some .rbrack then byteList rest.dropLast else .error .badOperands
  | _ => .error .badOperands

/-- The instruction of a mnemonic and its operands; omitted lanes are assembled as 0x00 (R68). -/
def parseInstr (m : List Char) (args : List Token) : Except AsmError Instr :=
  if m = ['E', 'N', 'C', '3'] then
    match byteList args with
    | .ok [b0, b1, b2] => .ok (.enc3 b0 b1 b2)
    | .ok _ => .error .badOperands
    | .error e => .error e
  else if m = ['E', 'N', 'C', '2'] then
    match byteList args with
    | .ok [b0, b1] => .ok (.enc2 b0 b1 0)
    | .ok _ => .error .badOperands
    | .error e => .error e
  else if m = ['E', 'N', 'C', '1'] then
    match byteList args with
    | .ok [b0] => .ok (.enc1 b0 0 0)
    | .ok _ => .error .badOperands
    | .error e => .error e
  else if m = ['E', 'N', 'C', '0'] then
    if args = [] then .ok (.enc0 0 0 0) else .error .badOperands
  else if m = ['S', 'T', 'A', 'R', 'T'] then (bytesOperand args).map fun bytes => .start bytes
  else if m = ['R', 'E', 'A', 'D'] then
    if args = [] then .ok .read else .error .badOperands
  else if m = ['E', 'N', 'C', 'O', 'D', 'E'] then (bytesOperand args).map fun bytes => .encode bytes
  else .error .unknownMnemonic

/-- The instruction of a line, `none` for a line that holds none (blank, or a comment alone). -/
def assembleLine (line : List Char) : Except AsmError (Option Instr) :=
  match lex line with
  | .error e => .error e
  | .ok [] => .ok none
  | .ok (.word m :: args) => (parseInstr m args).map fun i => some i
  | .ok _ => .error .unknownMnemonic

/-- A hex digit. -/
def hexDigit (v : Nat) : Char := if v < 10 then Char.ofNat (0x30 + v) else Char.ofNat (0x37 + v)

/-- A byte as the hex literal `0x..`. -/
def hexByte (b : Byte) : List Char := ['0', 'x', hexDigit (b.toNat / 16), hexDigit (b.toNat % 16)]

/-- Byte literals separated by a comma and a space. -/
def hexBytes : Bytes → List Char
  | [] => []
  | [b] => hexByte b
  | b :: bs => hexByte b ++ [',', ' '] ++ hexBytes bs

/-- The text of an instruction: the mnemonic and the valid lanes only (R68), `none` for STEP, which is internal. -/
def disassemble : Instr → Option (List Char)
  | .enc3 b0 b1 b2 => some (['E', 'N', 'C', '3', ' '] ++ hexBytes [b0, b1, b2])
  | .enc2 b0 b1 _ => some (['E', 'N', 'C', '2', ' '] ++ hexBytes [b0, b1])
  | .enc1 b0 _ _ => some (['E', 'N', 'C', '1', ' '] ++ hexBytes [b0])
  | .enc0 _ _ _ => some ['E', 'N', 'C', '0']
  | .start bytes => some (['S', 'T', 'A', 'R', 'T', ' ', '['] ++ hexBytes bytes ++ [']'])
  | .step => none
  | .read => some ['R', 'E', 'A', 'D']
  | .encode bytes => some (['E', 'N', 'C', 'O', 'D', 'E', ' ', '['] ++ hexBytes bytes ++ [']'])

end Sys2Proof.Machine
end

