-- ==== Sys2Proof/Machine/Memory.lean ====
section
/-! DEFINITION. The byte spaces as a platform that places them in a system memory sees them (R7, R50, D17). The
machine works on the index spaces IN and OUT (R40) and never reads this view; no meaning depends on a base (R50).
Ranges that overlap are outside the spec (R28, I4), and the view then has no value. -/
namespace Sys2Proof.Machine

/-- Memory as address and byte pairs, addresses strictly rising and of no width (log 21). An address that is not listed reads as no value
(log 5): it is not the block's. -/
abbrev Memory := List Host.Cell

/-- The canonical form: addresses strictly rising. An unlisted address reads as no value, so no entry can equal it. -/
def Memory.wf : Memory → Bool
  | [] => true
  | cell :: rest => rest.all (fun c => decide (cell.1 < c.1)) && Memory.wf rest

/-- The byte at an address, `none` where nothing is listed. -/
def Memory.read : Memory → Nat → Option Byte
  | [], _ => none
  | cell :: rest, a => if cell.1 = a then some cell.2 else Memory.read rest a

/-- Stores one byte, keeping the canonical form. -/
def Memory.write : Memory → Nat → Byte → Memory
  | [], a, b => [(a, b)]
  | cell :: rest, a, b =>
    if a < cell.1 then (a, b) :: cell :: rest
    else if a = cell.1 then (a, b) :: rest
    else cell :: Memory.write rest a b

/-- Stores a byte sequence from an address on, element 0 at the lowest address. DESIGN CHOICE (log 21): the address
is a natural number, so no sequence runs past the end of the address space or wraps. -/
def Memory.writeAll (m : Memory) (base : Nat) : Bytes → Memory
  | [] => m
  | b :: bs => Memory.writeAll (m.write base b) (base + 1) bs

/-- A placed byte space: where it starts, how many addresses it takes, and what it holds. -/
structure Span where
  base : Nat
  size : Nat
  bytes : Bytes
deriving DecidableEq, Repr

/-- Two spaces have no address in common (R28). -/
def Span.disjoint (a b : Span) : Bool :=
  decide (a.size = 0) || decide (b.size = 0) || decide (a.base + a.size ≤ b.base) || decide (b.base + b.size ≤ a.base)

/-- The two spaces of a placed instance: IN takes N addresses, OUT takes ceil(N/3)·4 (R40). -/
def spansOf (c : SeqState) (p : Placement) : List Span :=
  [{ base := p.inBase, size := c.inp.length, bytes := c.inp },
   { base := p.outBase, size := groupsOf c.inp.length * 4, bytes := c.out }]

/-- The spaces of every placed instance. -/
def spans (s : State) : List Span :=
  (s.insts.zip s.cfg.places).flatMap fun e =>
    match e.2 with
    | none => []
    | some p => spansOf e.1 p

/-- No two placed spaces overlap: R28 within an instance, R57's condition between instances. -/
def placedDisjoint (s : State) : Bool := decide ((spans s).Pairwise fun a b => a.disjoint b = true)

/-- The placed spaces as system memory, `none` where two of them overlap (I4: outside the spec). -/
def platformImage (s : State) : Option Memory :=
  if placedDisjoint s then some ((spans s).foldl (fun m sp => m.writeAll sp.base sp.bytes) []) else none

end Sys2Proof.Machine
end

