-- ==== Sys2Proof/Safety.lean ====
section
/-! DEFINITION. What counts as a good state, in the terms the claims use: the invariants of every reachable
sequencer state (R29), what its output space may hold (R119), and both over every instance of the machine. -/
namespace Sys2Proof.Machine

/-- R29's three clauses on one sequencer state. -/
def SeqState.Inv (c : SeqState) : Prop :=
  match c.phase with
  | .idle => c.inp = [] ∧ c.pos = 0 ∧ c.out = []
  | .busy => c.pos % 3 = 0 ∧ c.pos ≤ c.inp.length ∧ c.out.length = c.pos / 3 * 4
  | .done => c.pos = c.inp.length ∧ c.out.length = groupsOf c.inp.length * 4

/-- The output space holds the encoding of what has been consumed, and at DONE the encoding of IN (R119). -/
def SeqState.OutputRight (c : SeqState) : Prop :=
  match c.phase with
  | .idle => c.out = []
  | .busy => c.pos % 3 = 0 ∧ c.pos ≤ c.inp.length ∧ c.out = encodeBytes (c.inp.take c.pos)
  | .done => c.out = encodeBytes c.inp

/-- The machine's invariant: the parameters are legal (R7), there are `INSTANCES` instances and the selected one is
among them, every instance meets R29, and no instance holds an input over `MAX_INPUT_LEN` (R112). -/
def State.Inv (s : State) : Prop :=
  s.cfg.wellFormed = true ∧ s.insts.length = s.cfg.instances ∧ s.sel < s.insts.length ∧
    ∀ c ∈ s.insts, c.Inv ∧ s.cfg.accepts c.inp.length = true

/-- Every instance's output space is right. -/
def State.OutputsRight (s : State) : Prop := ∀ c ∈ s.insts, c.OutputRight

/-- Whether a tick starts a new message on instance `k` or resets the machine: the only ways out of DONE (R117). -/
def Tick.restarts (k : Nat) : Tick → Bool
  | .reset _ => true
  | .move j (.start _) => decide (j = k)
  | .move _ (.port _) => false
  | .move _ .seqStep => false
  | .move _ .read => false
  | .move _ (.encode _) => false

/-- Whether the next thing on the agenda restarts instance `k`; an empty agenda does not. -/
def State.restartsNext (s : State) (k : Nat) : Bool :=
  match s.agenda with
  | [] => false
  | t :: _ => t.restarts k

/-- Whether a tick can reach instance `k`: its own moves, and reset (R57, R150). -/
def Tick.concerns (k : Nat) : Tick → Bool
  | .reset _ => true
  | .move j _ => decide (j = k)

/-- What an instruction on instance `k` leaves to later steps: ENCODE of three bytes or more, the ENCODE of the rest
(R70); nothing of any other instruction. -/
def deferred (k : Nat) : Instr → List Tick
  | .enc3 _ _ _ => []
  | .enc2 _ _ _ => []
  | .enc1 _ _ _ => []
  | .enc0 _ _ _ => []
  | .start _ => []
  | .step => []
  | .read => []
  | .encode bytes => if 3 ≤ bytes.length then [.move k (.encode (bytes.drop 3))] else []

/-- How many steps a tick takes: a step is one group transaction or one host command (R8), so an ENCODE takes one
for each of its `floor(N/3) + 1` commands (R70). -/
def Tick.steps : Tick → Nat
  | .reset _ => 1
  | .move _ (.port _) => 1
  | .move _ (.start _) => 1
  | .move _ .seqStep => 1
  | .move _ .read => 1
  | .move _ (.encode bytes) => bytes.length / 3 + 1

/-- How many steps the whole agenda takes. -/
def State.agendaSteps (s : State) : Nat := (s.agenda.map Tick.steps).sum

/-- A whole message on instance `k` as the agenda writes it: START, `floor(N/3) + 1` STEPs, READ (R115). -/
def messageAgenda (k : Nat) (bytes : Bytes) : List Tick :=
  .move k (.start bytes) :: List.replicate (bytes.length / 3 + 1) (.move k .seqStep) ++ [.move k .read]

/-- The state after a STEP of the selected instance `c` that issued `w` and set `pos` and `phase` (R114's last three
lines): the first `nout` lanes of the result are appended to OUT, and nothing else of the block changes. -/
def State.afterStep (s : State) (c : SeqState) (w : Gcw) (pos : Nat) (phase : Phase) : State :=
  { s with
    insts := s.insts.set s.sel { phase := phase, inp := c.inp, pos := pos, out := c.out ++ emitted (group w) }
    resp := .group w (group w) }

/-- How many STEPs the instance's message still takes at most (R115). -/
def SeqState.stepsLeft (c : SeqState) : Nat :=
  match c.phase with
  | .idle => 0
  | .busy => (c.inp.length - c.pos) / 3 + 1
  | .done => 0

end Sys2Proof.Machine
end

