-- ==== Sys2Proof/Certificates/Slice0/Obligations.lean ====
section
/-! DEFINITION. The statements for the provers. Each docstring names the rule of spec/ a statement formalises, and
the log entry where a clause is the model's own choice. -/

open Sys2Proof Sys2Proof.Machine

/-! ### Command words -/

/-- R61, R65: decoding an encoded instruction gives it back, with every lane at every value; and the instructions
that have a word are the group commands: START, STEP, READ and ENCODE have none (R69, R70). -/
def Obligations.DecodeOfEncodedInstruction : Prop :=
  (∀ i w, encode i = some w → decode w = i) ∧ ∀ i, (encode i).isSome = i.isGroupCommand

/-- R66: each of the 2^26 words decodes to exactly one group command, and no bit of it is dropped (log 7). -/
def Obligations.EveryWordIsOneCommand : Prop :=
  ∀ w : Gcw, encode (decode w) = some w ∧ (decode w).isGroupCommand = true ∧
    ∀ i, encode i = some w → i = decode w

/-- R65: the field n alone selects the command, by the opcode table's mask and match words. -/
def Obligations.CountFieldSelectsCommand : Prop :=
  ∀ w : Gcw,
    ((∃ b0 b1 b2, decode w = .enc3 b0 b1 b2) ↔ w &&& 0x3000000 = 0x3000000) ∧
    ((∃ b0 b1 b2, decode w = .enc2 b0 b1 b2) ↔ w &&& 0x3000000 = 0x2000000) ∧
    ((∃ b0 b1 b2, decode w = .enc1 b0 b1 b2) ↔ w &&& 0x3000000 = 0x1000000) ∧
    ((∃ b0 b1 b2, decode w = .enc0 b0 b1 b2) ↔ w &&& 0x3000000 = 0x0000000)

/-- Words written out from the encodings of R101 to R104 decode to their instructions. -/
def Obligations.WrittenWordsDecode : Prop :=
  decode 0b11011001100110111101101111 = .enc3 0x66 0x6F 0x6F ∧
  decode 0b10011001100110111100000000 = .enc2 0x66 0x6F 0x00 ∧
  decode 0b01111111111010101111001101 = .enc1 0xFF 0xAB 0xCD ∧
  decode 0b00000100100011010001010110 = .enc0 0x12 0x34 0x56

/-- R68: the word is `n<<24 | b0<<16 | b1<<8 | b2`. -/
def Obligations.WordIsShiftedFields : Prop :=
  ∀ (n : BitVec 2) (b0 b1 b2 : Byte),
    gcw n b0 b1 b2 =
      n.setWidth 26 <<< 24 ||| b0.setWidth 26 <<< 16 ||| b1.setWidth 26 <<< 8 ||| b2.setWidth 26

/-- R68, R69: assembling an instruction's text gives the instruction with its don't-care lanes as 0x00, two
instructions print alike exactly if they differ in no more than those lanes, and only STEP has no text. The lexical
details R68 leaves open are the model's (log 16). -/
def Obligations.AssembleOfDisassembled : Prop :=
  (∀ i txt, disassemble i = some txt → assembleLine txt = .ok (some i.canonical)) ∧
  (∀ i j : Instr, disassemble i = disassemble j ↔ i.canonical = j.canonical) ∧
  ∀ i : Instr, disassemble i = none ↔ i = .step

/-! ### alphabet_lut -/

/-- R80, R22: the ranges of the pseudocode give the table, which has 64 entries. -/
def Obligations.LutIsTheAlphabetTable : Prop :=
  alphabet.length = 64 ∧ ∀ s : Sextet, alphabet[s.toNat]? = some (lut s)

/-- R81: LUT is injective. -/
def Obligations.LutIsInjective : Prop := ∀ s t : Sextet, lut s = lut t → s = t

/-- R82, R83: no LUT result is `=`, `+` or `/`; indices 62 and 63 give `-` and `_`. -/
def Obligations.LutAvoidsPadPlusSlash : Prop :=
  (∀ s : Sextet, lut s ∈ alphabet ∧ lut s ≠ pad ∧ lut s ≠ 0x2B ∧ lut s ≠ 0x2F) ∧ lut 62 = 0x2D ∧ lut 63 = 0x5F

/-! ### 3b_to_4s_packer -/

/-- R63: V is assembled with the lanes that are not valid forced to zero, and its three shift forms. -/
def Obligations.PackedValueLanes : Prop :=
  ∀ (n : BitVec 2) (b0 b1 b2 : Byte),
    (packed n b0 b1 b2).extractLsb' 16 8 = (if 1 ≤ n then b0 else 0) ∧
    (packed n b0 b1 b2).extractLsb' 8 8 = (if 2 ≤ n then b1 else 0) ∧
    (packed n b0 b1 b2).extractLsb' 0 8 = (if n = 3 then b2 else 0) ∧
    packed 3 b0 b1 b2 = b0.setWidth 24 <<< 16 ||| b1.setWidth 24 <<< 8 ||| b2.setWidth 24 ∧
    packed 2 b0 b1 b2 = b0.setWidth 24 <<< 16 ||| b1.setWidth 24 <<< 8 ∧
    packed 1 b0 b1 b2 = b0.setWidth 24 <<< 16

/-- R64: the sextets are the four slices of V, most significant first, and so the given bits of the gated lanes, and
each is itself the index of the symbol looked up. -/
def Obligations.SextetsOfLanes : Prop :=
  (∀ (n : BitVec 2) (k : BitVec 3) (s : Sextet), k < ndataOf n → alphabet[s.toNat]? = some (symbol n k s)) ∧
  ∀ (n : BitVec 2) (b0 b1 b2 : Byte),
    (pack n b0 b1 b2).1 = ((packed n b0 b1 b2).extractLsb' 18 6, (packed n b0 b1 b2).extractLsb' 12 6,
      (packed n b0 b1 b2).extractLsb' 6 6, (packed n b0 b1 b2).extractLsb' 0 6) ∧
    (pack n b0 b1 b2).1 = ((lane0 n b0).extractLsb' 2 6,
      (lane0 n b0).extractLsb' 0 2 ++ (lane1 n b1).extractLsb' 4 4,
      (lane1 n b1).extractLsb' 0 4 ++ (lane2 n b2).extractLsb' 6 2,
      (lane2 n b2).extractLsb' 0 6)

/-- R92: the outputs of PACK do not depend on input lanes that are not valid. -/
def Obligations.PackIgnoresInvalidLanes : Prop :=
  ∀ b0 b1 x y z : Byte,
    pack 2 b0 b1 x = pack 2 b0 b1 y ∧ pack 1 b0 x y = pack 1 b0 z z ∧ pack 0 x y z = pack 0 0 0 0

/-- R93: the zero-filled sextets, and that a sextet at a position from ndata on is never looked up. -/
def Obligations.ZeroFilledSextets : Prop :=
  (∀ b0 x y : Byte, (pack 1 b0 x y).1.2 = (b0.extractLsb' 0 2 ++ (0 : BitVec 4), 0, 0)) ∧
  (∀ b0 b1 x : Byte, (pack 2 b0 b1 x).1.2.2 = (b1.extractLsb' 0 4 ++ (0 : BitVec 2), 0)) ∧
  (∀ x y z : Byte, (pack 0 x y z).1 = (0, 0, 0, 0)) ∧
  ∀ (n : BitVec 2) (k : BitVec 3) (s t : Sextet), ndataOf n ≤ k → symbol n k s = symbol n k t

/-- R94: ndata for each n, the two formulas that give it, and that PACK answers it. -/
def Obligations.DataSextetCount : Prop :=
  ndataOf 3 = 4 ∧ ndataOf 2 = 3 ∧ ndataOf 1 = 2 ∧ ndataOf 0 = 0 ∧
  ∀ n : BitVec 2, (ndataOf n).toNat = (if n = 0 then 0 else n.toNat + 1) ∧
    (ndataOf n).toNat = (8 * n.toNat + 5) / 6 ∧ ∀ b0 b1 b2, (pack n b0 b1 b2).2 = ndataOf n

/-- R95: the corner cases of PACK. -/
def Obligations.PackCornerCases : Prop :=
  pack 3 0x00 0x00 0x00 = ((0, 0, 0, 0), 4) ∧ pack 3 0xFF 0xFF 0xFF = ((63, 63, 63, 63), 4) ∧
  (∀ x y, pack 1 0xFF x y = ((63, 48, 0, 0), 2)) ∧ (∀ x, pack 2 0xFF 0xFF x = ((63, 63, 60, 0), 3)) ∧
  pack 3 0x00 0x10 0x83 = ((0, 1, 2, 3), 4)

/-! ### The group datapath and its four commands -/

/-- R100, R62 (for n ≠ 0): lane k holds LUT of sextet k below ndata and PAD from there on. The result word of n = 0
is left out: R160 lets no claim depend on it. -/
def Obligations.GroupLanes : Prop :=
  ∀ (n : BitVec 2) (b0 b1 b2 : Byte), n ≠ 0 →
    lanes (group (gcw n b0 b1 b2)).grw =
      [lut (sextet0 (packed n b0 b1 b2)), lut (sextet1 (packed n b0 b1 b2)),
        if 2 ≤ n then lut (sextet2 (packed n b0 b1 b2)) else pad,
        if n = 3 then lut (sextet3 (packed n b0 b1 b2)) else pad]

/-- R62: the side outputs of every word, and ndata + npad = nout. -/
def Obligations.SideOutputsAddUp : Prop :=
  ∀ w : Gcw,
    (group w).nout = (if countField w = 0 then 0 else 4) ∧ (group w).ndata = ndataOf (countField w) ∧
    (group w).npad = (if countField w = 1 then 2 else if countField w = 2 then 1 else 0) ∧
    (group w).ndata.toNat + (group w).npad.toNat = (group w).nout.toNat

/-- R100: what a group emits is its data symbols, each a LUT result, and then its padding. -/
def Obligations.DataBeforePadding : Prop :=
  ∀ w : Gcw, ∃ data : Bytes,
    emitted (group w) = data ++ List.replicate (group w).npad.toNat pad ∧
    data.length = (group w).ndata.toNat ∧ ∀ b ∈ data, ∃ s : Sextet, b = lut s

/-- R101: ENC3 completes in every phase with the four symbols of V, and changes nothing but the answer. -/
def Obligations.Enc3Completes : Prop :=
  (∀ (s : State) (b0 b1 b2 : Byte), s.sel < s.insts.length →
    let v : Packed := b0.setWidth 24 <<< 16 ||| b1.setWidth 24 <<< 8 ||| b2.setWidth 24
    exec (.enc3 b0 b1 b2) s = .next { s with
      resp := .group (gcw 3 b0 b1 b2)
        { grw := lut (v.extractLsb' 18 6) ++ lut (v.extractLsb' 12 6) ++ lut (v.extractLsb' 6 6)
            ++ lut (v.extractLsb' 0 6)
          nout := 4, ndata := 4, npad := 0 } }) ∧
  (∀ b0 b1 b2 : Byte, gcw 3 b0 b1 b2 &&& 0x3000000 = 0x3000000 ∧
    ∀ c ∈ lanes (group (gcw 3 b0 b1 b2)).grw, c ≠ pad) ∧
  (group (gcw 3 0x00 0x00 0x00)).grw = 0x41414141 ∧ (group (gcw 3 0xFF 0xFF 0xFF)).grw = 0x5F5F5F5F ∧
  (group (gcw 3 0xFB 0xFF 0xBF)).grw = 0x2D5F2D5F ∧ gcw 3 0x66 0x6F 0x6F = 0x3666F6F ∧
  pack 3 0x66 0x6F 0x6F = ((25, 38, 61, 47), 4) ∧ (group 0x3666F6F).grw = 0x5A6D3976 ∧
  assembleLine ['E', 'N', 'C', '3', ' ', apostrophe, 'f', apostrophe, ',', apostrophe, 'o', apostrophe, ',',
    apostrophe, 'o', apostrophe] = .ok (some (.enc3 0x66 0x6F 0x6F))

/-- R102: ENC2 completes in every phase with three symbols and one PAD, whatever lane b2 holds, and changes nothing
but the answer. -/
def Obligations.Enc2Completes : Prop :=
  (∀ (s : State) (b0 b1 x2 : Byte), s.sel < s.insts.length →
    let v : Packed := b0.setWidth 24 <<< 16 ||| b1.setWidth 24 <<< 8
    exec (.enc2 b0 b1 x2) s = .next { s with
      resp := .group (gcw 2 b0 b1 x2)
        { grw := lut (v.extractLsb' 18 6) ++ lut (v.extractLsb' 12 6) ++ lut (v.extractLsb' 6 6) ++ pad
          nout := 4, ndata := 3, npad := 1 } }) ∧
  (∀ b0 b1 x2 : Byte, gcw 2 b0 b1 x2 &&& 0x3000000 = 0x2000000 ∧ (pack 2 b0 b1 x2).1.2.2.1.toNat % 4 = 0) ∧
  (group (gcw 2 0x00 0x00 0x00)).grw = 0x4141413D ∧ (group 0x2FFFF00).grw = 0x5F5F383D ∧
  (group 0x2FFFFCD).grw = 0x5F5F383D ∧ gcw 2 0x66 0x6F 0x00 = 0x2666F00 ∧
  pack 2 0x66 0x6F 0x00 = ((25, 38, 60, 0), 3) ∧ (group 0x2666F00).grw = 0x5A6D383D ∧
  assembleLine ['E', 'N', 'C', '2', ' ', apostrophe, 'f', apostrophe, ',', apostrophe, 'o', apostrophe] =
    .ok (some (.enc2 0x66 0x6F 0x00))

/-- R103: ENC1 completes in every phase with two symbols and two PADs, whatever lanes b1 and b2 hold, and changes
nothing but the answer. -/
def Obligations.Enc1Completes : Prop :=
  (∀ (s : State) (b0 x1 x2 : Byte), s.sel < s.insts.length →
    let v : Packed := b0.setWidth 24 <<< 16
    exec (.enc1 b0 x1 x2) s = .next { s with
      resp := .group (gcw 1 b0 x1 x2)
        { grw := lut (v.extractLsb' 18 6) ++ lut (v.extractLsb' 12 6) ++ pad ++ pad
          nout := 4, ndata := 2, npad := 2 } }) ∧
  (∀ b0 x1 x2 : Byte, gcw 1 b0 x1 x2 &&& 0x3000000 = 0x1000000 ∧
    (pack 1 b0 x1 x2).1.2.1 ∈ ([0, 16, 32, 48] : List Sextet)) ∧
  (group (gcw 1 0x00 0x00 0x00)).grw = 0x41413D3D ∧ (group 0x1FF0000).grw = 0x5F773D3D ∧
  (group 0x1FFABCD).grw = 0x5F773D3D ∧ (group (gcw 1 0xFB 0x00 0x00)).grw = 0x2D773D3D ∧
  gcw 1 0x66 0x00 0x00 = 0x1660000 ∧ pack 1 0x66 0x00 0x00 = ((25, 32, 0, 0), 2) ∧
  (group 0x1660000).grw = 0x5A673D3D ∧
  assembleLine ['E', 'N', 'C', '1', ' ', apostrophe, 'f', apostrophe] = .ok (some (.enc1 0x66 0x00 0x00))

/-- R104: ENC0 completes in every phase, emits nothing, answers the same whatever its lanes hold, and changes nothing
but the answer. Its result word is left out: R160 lets no claim depend on it. -/
def Obligations.Enc0Completes : Prop :=
  ∃ r : GroupResult, r.nout = 0 ∧ r.ndata = 0 ∧ r.npad = 0 ∧ emitted r = [] ∧
    ∀ (s : State) (x0 x1 x2 : Byte), s.sel < s.insts.length →
      exec (.enc0 x0 x1 x2) s = .next { s with resp := .group (gcw 0 x0 x1 x2) r } ∧
        gcw 0 x0 x1 x2 &&& 0x3000000 = 0x0000000

/-- R105: a group command answers alike in every two states (whatever the phase, the other instances or the
history) and changes no state of the block. -/
def Obligations.GroupCommandsReadNoState : Prop :=
  ∀ (i : Instr) (s s' : State), i.isGroupCommand = true → s.sel < s.insts.length → s'.sel < s'.insts.length →
    ∃ r : Response, exec i s = .next { s with resp := r } ∧ exec i s' = .next { s' with resp := r }

/-- R66: the lanes that are not valid never affect the result word or the side outputs. -/
def Obligations.DontCareLanesChangeNoResult : Prop :=
  ∀ i j : Instr, i.canonical = j.canonical → ∀ w v, encode i = some w → encode j = some v → group w = group v

/-- R107, R157: commands on the port after one another give the encoding of an input when ENC3s are followed by one
closing command, and of no input when a padded group is followed by one that emits. -/
def Obligations.PartialGroupsComeLast : Prop :=
  (∀ (ws : List Gcw) (last : Gcw), (∀ w ∈ ws, countField w = 3) → countField last ≠ 3 →
    ∃ x : Bytes, (ws ++ [last]).flatMap (fun w => emitted (group w)) = encodeBytes x) ∧
  ∀ (ws after : List Gcw) (w w' : Gcw) (x : Bytes), countField w = 1 ∨ countField w = 2 → w' ∈ after →
    countField w' ≠ 0 → (ws ++ w :: after).flatMap (fun w => emitted (group w)) ≠ encodeBytes x

/-- R70, R8: ENCODE issues the commands of gcws in order, one group transaction a step: a step answers the first
word and leaves the ENCODE of the rest next on the agenda (log 10), and the steps of a run answer gcws word by word.
There are `floor(N/3) + 1`, exactly the last is no ENC3, and together they emit the input's encoding. -/
def Obligations.EncodeCompletes : Prop :=
  (∀ (s : State) (bytes : Bytes) (w : Gcw) (ws : List Gcw), s.sel < s.insts.length → gcws bytes = w :: ws →
    ws = (if 3 ≤ bytes.length then gcws (bytes.drop 3) else []) ∧
    exec (.encode bytes) s = .next { s with
      agenda := if 3 ≤ bytes.length then .move s.sel (.encode (bytes.drop 3)) :: s.agenda else s.agenda
      resp := .group w (group w) }) ∧
  (∀ (s : State) (k : Nat) (bytes : Bytes) (rest : List Tick) (j : Nat) (w : Gcw), k < s.insts.length →
    s.agenda = .move k (.encode bytes) :: rest → (gcws bytes)[j]? = some w →
    Host.Core.run Sys2Proof.core (j + 1) s = .next { s with
      sel := k
      agenda := if j < bytes.length / 3 then .move k (.encode (bytes.drop (3 * (j + 1)))) :: rest else rest
      resp := .group w (group w) }) ∧
  ∀ bytes : Bytes, (gcws bytes).length = bytes.length / 3 + 1 ∧
    (∃ ws last, gcws bytes = ws ++ [last] ∧ (∀ w ∈ ws, countField w = 3) ∧
      (countField last).toNat = bytes.length % 3) ∧
    (gcws bytes).flatMap (fun w => emitted (group w)) = encodeBytes bytes

/-! ### START, STEP, READ -/

/-- R111: START in IDLE or DONE within the limit begins a message and touches nothing else; over the empty input the
message is one STEP, an ENC0, with an empty OUT. -/
def Obligations.StartBeginsMessage : Prop :=
  (∀ (s : State) (c : SeqState) (bytes : Bytes), s.insts[s.sel]? = some c → c.phase = .idle ∨ c.phase = .done →
    s.cfg.maxInputLen = none ∨ (∃ m, s.cfg.maxInputLen = some m ∧ bytes.length ≤ m) →
    exec (.start bytes) s = .next { s with
      insts := s.insts.set s.sel { phase := .busy, inp := bytes, pos := 0, out := [] }
      resp := .nothing }) ∧
  (issue (beginMessage [])).word = gcw 0 0x00 0x00 0x00 ∧
  advance (beginMessage []) = { phase := .done, inp := [], pos := 0, out := [] }

/-- R112: a START over the limit is refused with REFUSE_TOO_LONG. -/
def Obligations.StartOverLimitRefused : Prop :=
  ∀ (s : State) (c : SeqState) (bytes : Bytes) (m : Nat), s.insts[s.sel]? = some c → c.phase ≠ .busy →
    s.cfg.maxInputLen = some m → m < bytes.length → exec (.start bytes) s = .refused .tooLong

/-- R113, R116, R114: the transactions outside their phases are no moves. That the model answers them with a
refusal is its choice (log 8). -/
def Obligations.NoMoveOutsidePhase : Prop :=
  ∀ (s : State) (c : SeqState), s.insts[s.sel]? = some c →
    (c.phase = .busy → ∀ bytes, exec (.start bytes) s = .refused .startWhileBusy) ∧
    (c.phase ≠ .done → exec .read s = .refused .readOutsideDone) ∧
    (c.phase ≠ .busy → exec .step s = .refused .stepOutsideBusy)

/-- The model's choice (log 14): a transaction on an instance that does not exist is refused by name. -/
def Obligations.NoSuchInstanceRefused : Prop :=
  ∀ (i : Instr) (s : State), s.insts.length ≤ s.sel → exec i s = .refused .noSuchInstance

/-- R114: STEP is enabled exactly in BUSY, and its four cases by the bytes that remain: the word it issues, what it
appends, the next pos and phase. -/
def Obligations.StepEncodesNextGroup : Prop :=
  ∀ (s : State) (c : SeqState), s.insts[s.sel]? = some c →
    ((∃ t, exec .step s = .next t) ↔ c.phase = .busy) ∧
    (c.phase = .busy →
      (c.pos + 3 ≤ c.inp.length → ∃ b0 b1 b2, memRead c.inp c.pos = some b0 ∧ memRead c.inp (c.pos + 1) = some b1 ∧
        memRead c.inp (c.pos + 2) = some b2 ∧
        exec .step s = .next (s.afterStep c (gcw 3 b0 b1 b2) (c.pos + 3) .busy)) ∧
      (c.pos + 2 = c.inp.length → ∃ b0 b1, memRead c.inp c.pos = some b0 ∧ memRead c.inp (c.pos + 1) = some b1 ∧
        exec .step s = .next (s.afterStep c (gcw 2 b0 b1 0x00) c.inp.length .done)) ∧
      (c.pos + 1 = c.inp.length → ∃ b0, memRead c.inp c.pos = some b0 ∧
        exec .step s = .next (s.afterStep c (gcw 1 b0 0x00 0x00) c.inp.length .done)) ∧
      (c.pos = c.inp.length → exec .step s = .next (s.afterStep c (gcw 0 0x00 0x00 0x00) c.pos .done)))

/-- R116: READ is enabled exactly in DONE, returns OUT, changes no state of the block, and may be repeated; what it
returns after `START []` and after `START "foo"` and two STEPs. -/
def Obligations.ReadReturnsOutput : Prop :=
  (∀ (s : State) (c : SeqState), s.insts[s.sel]? = some c →
    ((∃ t, exec .read s = .next t) ↔ c.phase = .done) ∧
    (c.phase = .done → exec .read s = .next { s with resp := .output c.out }) ∧
    ∀ t, exec .read s = .next t → exec .read t = .next t) ∧
  hostView (advance (beginMessage [])) = (0b10, some []) ∧
  hostView (advance (advance (beginMessage [0x66, 0x6F, 0x6F]))) = (0b10, some [0x5A, 0x6D, 0x39, 0x76])

/-- R69: the phase output's three codes; 0b11 is never produced. -/
def Obligations.PhaseOutputCodes : Prop :=
  phaseBits .idle = 0b00 ∧ phaseBits .busy = 0b01 ∧ phaseBits .done = 0b10 ∧ ∀ p, phaseBits p ≠ 0b11

/-- R25, R140, R53: in every phase the host sees the phase output; outside DONE it sees no OUT, and so nothing of an
instance but its phase; in DONE it sees OUT. That `hostView` is what the host sees is read from these rules (log 19). -/
def Obligations.HostSeesPhaseAndOutput : Prop :=
  (∀ c : SeqState, (hostView c).1 = phaseBits c.phase) ∧
  (∀ c : SeqState, c.phase ≠ .done → (hostView c).2 = none) ∧
  (∀ c d : SeqState, c.phase = d.phase → c.phase ≠ .done → hostView c = hostView d) ∧
  ∀ c : SeqState, c.phase = .done → hostView c = (0b10, some c.out)

/-! ### The encode function -/

/-- The source's known vectors (95_test_vectors.md, section 1.1). -/
def Obligations.KnownVectors : Prop :=
  encodeBytes [] = [] ∧
  encodeBytes [0x66] = [0x5A, 0x67, 0x3D, 0x3D] ∧
  encodeBytes [0x66, 0x6F] = [0x5A, 0x6D, 0x38, 0x3D] ∧
  encodeBytes [0x66, 0x6F, 0x6F] = [0x5A, 0x6D, 0x39, 0x76] ∧
  encodeBytes [0x66, 0x6F, 0x6F, 0x62] = [0x5A, 0x6D, 0x39, 0x76, 0x59, 0x67, 0x3D, 0x3D] ∧
  encodeBytes [0x66, 0x6F, 0x6F, 0x62, 0x61] = [0x5A, 0x6D, 0x39, 0x76, 0x59, 0x6D, 0x45, 0x3D] ∧
  encodeBytes [0x66, 0x6F, 0x6F, 0x62, 0x61, 0x72] = [0x5A, 0x6D, 0x39, 0x76, 0x59, 0x6D, 0x46, 0x79]

/-- R120: the output length is ceil(N/3)·4, a multiple of 4, and 0 only for the empty input. -/
def Obligations.EncodeLength : Prop :=
  ∀ x : Bytes, (encodeBytes x).length = (x.length + 2) / 3 * 4 ∧ (encodeBytes x).length % 4 = 0 ∧
    ((encodeBytes x).length = 0 ↔ x = [])

/-- R121: every output byte is a LUT result or PAD. -/
def Obligations.EncodeStaysInAlphabet : Prop :=
  ∀ (x : Bytes), ∀ b ∈ encodeBytes x, (∃ s : Sextet, b = lut s) ∨ b = pad

/-- R122: the PAD bytes form one suffix, of length 0, 2 or 1 for N mod 3 = 0, 1 or 2. -/
def Obligations.EncodePadsOnlyAtTheEnd : Prop :=
  ∀ x : Bytes, ∃ data : Bytes, pad ∉ data ∧
    encodeBytes x = data ++ List.replicate (if x.length % 3 = 1 then 2 else if x.length % 3 = 2 then 1 else 0) pad

/-- R125: an input of whole groups gives no PAD byte. -/
def Obligations.WholeGroupsUnpadded : Prop := ∀ x : Bytes, x.length % 3 = 0 → pad ∉ encodeBytes x

/-- R126: encoding splits at group boundaries, and a prefix of the output depends on a prefix of the input alone. -/
def Obligations.EncodeSplitsAtGroups : Prop :=
  (∀ a b : Bytes, a.length % 3 = 0 → encodeBytes (a ++ b) = encodeBytes a ++ encodeBytes b) ∧
  ∀ (x y : Bytes) (k : Nat), 3 * k ≤ x.length → 3 * k ≤ y.length → x.take (3 * k) = y.take (3 * k) →
    (encodeBytes x).take (4 * k) = (encodeBytes y).take (4 * k)

/-- R115: the STEPs of a message. After j of them, up to `floor(N/3)`, the sequencer is BUSY at 3·j; the next one
ends the message; the words issued are gcws(IN), all ENC3 but the last, whose n is N mod 3. -/
def Obligations.MessageIssuesGcws : Prop :=
  ∀ bytes : Bytes,
    (∀ j, j ≤ bytes.length / 3 → advance^[j] (beginMessage bytes) =
      { phase := .busy, inp := bytes, pos := 3 * j, out := encodeBytes (bytes.take (3 * j)) }) ∧
    advance^[bytes.length / 3 + 1] (beginMessage bytes) =
      { phase := .done, inp := bytes, pos := bytes.length, out := encodeBytes bytes } ∧
    (List.range (bytes.length / 3 + 1)).map (fun j => (issue (advance^[j] (beginMessage bytes))).word) = gcws bytes ∧
    (∀ j, j < bytes.length / 3 → countField (issue (advance^[j] (beginMessage bytes))).word = 3) ∧
    (countField (issue (advance^[bytes.length / 3] (beginMessage bytes))).word).toNat = bytes.length % 3

/-! ### The whole machine -/

/-- A step runs the decoded instruction: a word driven on the group port is decoded and executed with its tick taken
off the agenda and its instance selected; the other moves run their transactions in the same way (log 1). -/
def Obligations.StepRunsDecodedInstruction : Prop :=
  ∀ (s : State) (k : Nat) (rest : List Tick),
    (∀ w, s.agenda = .move k (.port w) :: rest → step s = exec (decode w) { s with agenda := rest, sel := k }) ∧
    (∀ b, s.agenda = .move k (.start b) :: rest → step s = exec (.start b) { s with agenda := rest, sel := k }) ∧
    (s.agenda = .move k .seqStep :: rest → step s = exec .step { s with agenda := rest, sel := k }) ∧
    (s.agenda = .move k .read :: rest → step s = exec .read { s with agenda := rest, sel := k }) ∧
    (∀ b, s.agenda = .move k (.encode b) :: rest → step s = exec (.encode b) { s with agenda := rest, sel := k })

/-- The model's scheduling with an empty agenda (log 2): the first BUSY sequencer takes its STEP, and with none
BUSY the machine waits. -/
def Obligations.SequencersMoveAlone : Prop :=
  ∀ s : State, s.agenda = [] →
    (∀ k c, s.insts[k]? = some c → c.phase = .busy →
      (∀ j d, j < k → s.insts[j]? = some d → d.phase ≠ .busy) → step s = exec .step { s with sel := k }) ∧
    ((∀ c ∈ s.insts, c.phase ≠ .busy) → step s = .next s)

/-- R152: after reset the block waits in IDLE, for every value of the parameters. -/
def Obligations.WaitsAfterReset : Prop :=
  ∀ cfg : Config, step (State.resetWith cfg) = .next (State.resetWith cfg) ∧
    ∀ c ∈ (State.resetWith cfg).insts, c.phase = .idle

/-- R33: the reset values of every piece of state, in every instance; the alphabet and PAD are constants, and no
state of a group datapath is among them: a group command answers after reset as its word alone says. -/
def Obligations.ResetValues : Prop :=
  (∀ cfg : Config, (State.resetWith cfg).insts.length = cfg.instances ∧
    ∀ c ∈ (State.resetWith cfg).insts,
      c.phase = .idle ∧ phaseBits c.phase = 0b00 ∧ c.inp = [] ∧ c.pos = 0 ∧ c.out = []) ∧
  (∀ cfg : Config, cfg.wellFormed = true → ∀ i w, encode i = some w →
    ∃ t, exec i (State.resetWith cfg) = .next t ∧ t.resp = .group w (group w)) ∧
  (∀ s : Sextet, alphabet[s.toNat]? = some (lut s)) ∧ pad = 0x3D

/-- R150, R134: reset puts every instance at its reset values in any phase, and overrides a pending transaction. -/
def Obligations.ResetClearsEveryInstance : Prop :=
  ∀ (s : State) (pending : Option (Nat × Move)) (rest : List Tick), s.agenda = .reset pending :: rest →
    step s = .next { s with
      insts := List.replicate s.insts.length { phase := .idle, inp := [], pos := 0, out := [] }
      agenda := rest, resp := .nothing }

/-- R151: after a reset in any state, BUSY included, a new START gives the full encoding of its input. -/
def Obligations.MessageAfterReset : Prop :=
  ∀ (s : State) (k : Nat) (bytes : Bytes) (pending : Option (Nat × Move)) (rest : List Tick),
    k < s.insts.length → s.cfg.accepts bytes.length = true →
    s.agenda = .reset pending :: messageAgenda k bytes ++ rest →
    ∃ t, Host.Core.run Sys2Proof.core (bytes.length / 3 + 4) s = .next t ∧ t.resp = .output (encodeBytes bytes) ∧
      t.agenda = rest

/-- R119, R115, R116, R123, R124: a message of START, `floor(N/3) + 1` STEPs and READ, run by the machine from any
state in which the instance is not BUSY, completes, returns `encode(bytes)`, leaves the instance in DONE with that
output, and touches no other instance. -/
def Obligations.MessageReturnsEncoding : Prop :=
  ∀ (s : State) (k : Nat) (c : SeqState) (bytes : Bytes) (rest : List Tick),
    s.insts[k]? = some c → c.phase ≠ .busy → s.cfg.accepts bytes.length = true →
    s.agenda = messageAgenda k bytes ++ rest →
    Host.Core.run Sys2Proof.core (bytes.length / 3 + 3) s = .next { s with
      insts := s.insts.set k { phase := .done, inp := bytes, pos := bytes.length, out := encodeBytes bytes }
      sel := k, agenda := rest, resp := .output (encodeBytes bytes) }

/-- R159, R115: left alone, the machine brings every BUSY instance to DONE within the STEPs its messages still
take. The order in which the sequencers move is the model's (log 2). -/
def Obligations.EveryMessageReachesDone : Prop :=
  ∀ s : State, s.agenda = [] →
    ∃ t, Host.Core.run Sys2Proof.core (s.insts.map SeqState.stepsLeft).sum s = .next t ∧
      t.insts.length = s.insts.length ∧ ∀ (k : Nat) (c : SeqState), s.insts[k]? = some c → ∃ d : SeqState, t.insts[k]? = some d ∧
        d.phase = (if c.phase = .busy then .done else c.phase) ∧ d.inp = c.inp

/-- R29, R7, R112: every step keeps the invariant. -/
def Obligations.StepKeepsInvariant : Prop := ∀ s t : State, s.Inv → step s = .next t → t.Inv

/-- R29, R33: the state after reset meets the invariant, for every legal value of the parameters. -/
def Obligations.ResetMeetsInvariant : Prop :=
  ∀ cfg : Config, cfg.wellFormed = true → (State.resetWith cfg).Inv ∧ (State.resetWith cfg).OutputsRight

/-- R119: every step keeps OUT the encoding of the bytes consumed, and at DONE the encoding of IN. -/
def Obligations.StepKeepsOutputsRight : Prop :=
  ∀ s t : State, s.OutputsRight → step s = .next t → t.OutputsRight

/-- R7, R22: no step writes a parameter or changes the number of instances. -/
def Obligations.ParametersNeverChange : Prop :=
  ∀ s t : State, step s = .next t → t.cfg = s.cfg ∧ t.insts.length = s.insts.length

/-- R34: a transaction reads and writes its own instance alone. On the agenda it leaves at most what `deferred` says:
the rest of an ENCODE (log 10). -/
def Obligations.OtherInstancesUntouched : Prop :=
  ∀ (i : Instr) (s t : State), exec i s = .next t →
    (∀ k, k ≠ s.sel → t.insts[k]? = s.insts[k]?) ∧ t.sel = s.sel ∧ t.agenda = deferred s.sel i ++ s.agenda ∧
    ∀ s' : State, s'.cfg = s.cfg → s'.sel = s.sel → s'.insts[s'.sel]? = s.insts[s.sel]? →
      ∃ t', exec i s' = .next t' ∧ t'.insts[s.sel]? = t.insts[s.sel]? ∧ t'.resp = t.resp

/-- R57: transactions of two instances can be exchanged, with the same answers and the same end; each instance has
the same ticks ahead of it in the same order. -/
def Obligations.InstancesCommute : Prop :=
  ∀ (i i' : Instr) (s t u : State) (j k : Nat), j ≠ k →
    exec i { s with sel := j } = .next t → exec i' { t with sel := k } = .next u →
    ∃ t' u', exec i' { s with sel := k } = .next t' ∧ exec i { t' with sel := j } = .next u' ∧
      u'.insts = u.insts ∧ u'.cfg = u.cfg ∧
      (∀ l, u'.agenda.filter (Tick.concerns l) = u.agenda.filter (Tick.concerns l)) ∧ t'.resp = u.resp ∧ u'.resp = t.resp

/-- R57, R139: any interleaving gives each instance the result it would have alone, that is, with the other
instances' moves taken off the agenda. -/
def Obligations.InterleavingIsInvisible : Prop :=
  ∀ (s t : State) (k : Nat), Host.Core.run Sys2Proof.core s.agendaSteps s = .next t →
    ∃ t', Host.Core.run Sys2Proof.core
        ({ s with agenda := s.agenda.filter (Tick.concerns k) } : State).agendaSteps
        { s with agenda := s.agenda.filter (Tick.concerns k) } = .next t' ∧
      t'.insts[k]? = t.insts[k]?

/-- R117: in every step, an instance in DONE stays as it is unless a START on it or a reset comes next. -/
def Obligations.DonePersists : Prop :=
  ∀ (s t : State) (k : Nat) (c : SeqState), step s = .next t → s.insts[k]? = some c → c.phase = .done →
    s.restartsNext k = false → t.insts[k]? = some c

/-- R52, R26, R42: in every step but a reset, a BUSY instance keeps its IN, its pos does not fall, and OUT is only
appended to. -/
def Obligations.BusyInputIsStable : Prop :=
  ∀ (s t : State) (k : Nat) (c : SeqState), step s = .next t → s.insts[k]? = some c → c.phase = .busy →
    (∀ p rest, s.agenda ≠ .reset p :: rest) →
    ∃ d more, t.insts[k]? = some d ∧ d.inp = c.inp ∧ c.pos ≤ d.pos ∧ d.out = c.out ++ more

/-- R130, R131: no step faults, and the refusals are these. Those but REFUSE_TOO_LONG are the model's names for
moves the spec says do not exist (log 8, log 14). -/
def Obligations.OutcomesAreClosed : Prop :=
  ∀ s : State, (∀ f, step s ≠ .fault f) ∧
    ∀ r, step s = .refused r → ∃ k m rest, s.agenda = .move k m :: rest ∧
      ((r = .noSuchInstance ∧ s.insts.length ≤ k) ∨
        ∃ c, s.insts[k]? = some c ∧
          ((r = .tooLong ∧ c.phase ≠ .busy ∧ ∃ bytes n, m = .start bytes ∧ s.cfg.maxInputLen = some n ∧ n < bytes.length) ∨
            (r = .startWhileBusy ∧ c.phase = .busy ∧ ∃ bytes, m = .start bytes) ∨
            (r = .readOutsideDone ∧ c.phase ≠ .done ∧ m = .read) ∨
            (r = .stepOutsideBusy ∧ c.phase ≠ .busy ∧ m = .seqStep)))

/-- R28, R50, R43: where the placed spaces are disjoint, the platform's memory holds IN and OUT at their bases, in
index order, in canonical form. Addresses are natural numbers that do not wrap, the model's choice (log 21). -/
def Obligations.PlatformImageShowsSpaces : Prop :=
  ∀ (s : State) (m : Memory), s.Inv → platformImage s = some m → m.wf = true ∧
    ∀ (k : Nat) (c : SeqState) (p : Placement), s.insts[k]? = some c → s.cfg.places[k]? = some (some p) →
      (∀ i, i < c.inp.length → m.read (p.inBase + i) = c.inp[i]?) ∧
      (∀ j, j < c.out.length → m.read (p.outBase + j) = c.out[j]?)
end

