-- ==== Sys2Proof/Laws/State.lean ====
section
/-! SUPPORT. What each update of the state does to each field, true by definition. -/
namespace Sys2Proof.Machine

@[simp] theorem State.setInst_cfg (s : State) (c : SeqState) : (s.setInst c).cfg = s.cfg := rfl
@[simp] theorem State.setInst_insts (s : State) (c : SeqState) : (s.setInst c).insts = s.insts.set s.sel c := rfl
@[simp] theorem State.setInst_sel (s : State) (c : SeqState) : (s.setInst c).sel = s.sel := rfl
@[simp] theorem State.setInst_agenda (s : State) (c : SeqState) : (s.setInst c).agenda = s.agenda := rfl
@[simp] theorem State.setInst_resp (s : State) (c : SeqState) : (s.setInst c).resp = s.resp := rfl

@[simp] theorem State.respond_cfg (s : State) (r : Response) : (s.respond r).cfg = s.cfg := rfl
@[simp] theorem State.respond_insts (s : State) (r : Response) : (s.respond r).insts = s.insts := rfl
@[simp] theorem State.respond_sel (s : State) (r : Response) : (s.respond r).sel = s.sel := rfl
@[simp] theorem State.respond_agenda (s : State) (r : Response) : (s.respond r).agenda = s.agenda := rfl
@[simp] theorem State.respond_resp (s : State) (r : Response) : (s.respond r).resp = r := rfl

@[simp] theorem State.defer_cfg (s : State) (m : Move) : (s.defer m).cfg = s.cfg := rfl
@[simp] theorem State.defer_insts (s : State) (m : Move) : (s.defer m).insts = s.insts := rfl
@[simp] theorem State.defer_sel (s : State) (m : Move) : (s.defer m).sel = s.sel := rfl
@[simp] theorem State.defer_agenda (s : State) (m : Move) : (s.defer m).agenda = .move s.sel m :: s.agenda := rfl
@[simp] theorem State.defer_resp (s : State) (m : Move) : (s.defer m).resp = s.resp := rfl

@[simp] theorem State.applyReset_cfg (s : State) : s.applyReset.cfg = s.cfg := rfl
@[simp] theorem State.applyReset_insts (s : State) :
    s.applyReset.insts = s.insts.map fun _ => SeqState.reset := rfl
@[simp] theorem State.applyReset_sel (s : State) : s.applyReset.sel = s.sel := rfl
@[simp] theorem State.applyReset_agenda (s : State) : s.applyReset.agenda = s.agenda := rfl
@[simp] theorem State.applyReset_resp (s : State) : s.applyReset.resp = .nothing := rfl

@[simp] theorem State.resetWith_cfg (cfg : Config) : (State.resetWith cfg).cfg = cfg := rfl
@[simp] theorem State.resetWith_insts (cfg : Config) :
    (State.resetWith cfg).insts = List.replicate cfg.instances SeqState.reset := rfl
@[simp] theorem State.resetWith_sel (cfg : Config) : (State.resetWith cfg).sel = 0 := rfl
@[simp] theorem State.resetWith_agenda (cfg : Config) : (State.resetWith cfg).agenda = [] := rfl
@[simp] theorem State.resetWith_resp (cfg : Config) : (State.resetWith cfg).resp = .nothing := rfl

@[simp] theorem State.encodeRest_cfg (s : State) (bytes : Bytes) : (s.encodeRest bytes).cfg = s.cfg := by
  unfold State.encodeRest
  split <;> rfl
@[simp] theorem State.encodeRest_insts (s : State) (bytes : Bytes) : (s.encodeRest bytes).insts = s.insts := by
  unfold State.encodeRest
  split <;> rfl
@[simp] theorem State.encodeRest_sel (s : State) (bytes : Bytes) : (s.encodeRest bytes).sel = s.sel := by
  unfold State.encodeRest
  split <;> rfl
@[simp] theorem State.encodeRest_resp (s : State) (bytes : Bytes) : (s.encodeRest bytes).resp = s.resp := by
  unfold State.encodeRest
  split <;> rfl
@[simp] theorem State.encodeRest_agenda (s : State) (bytes : Bytes) :
    (s.encodeRest bytes).agenda = deferred s.sel (.encode bytes) ++ s.agenda := by
  rcases bytes with _ | ⟨b0, _ | ⟨b1, _ | ⟨b2, t⟩⟩⟩ <;> simp [State.encodeRest, issue, beginMessage, deferred, State.defer]

@[simp] theorem advance_inp (c : SeqState) : (advance c).inp = c.inp := rfl
@[simp] theorem advance_pos (c : SeqState) : (advance c).pos = (issue c).pos := rfl
@[simp] theorem advance_phase (c : SeqState) : (advance c).phase = (issue c).phase := rfl

@[simp] theorem beginMessage_phase (bytes : Bytes) : (beginMessage bytes).phase = .busy := rfl
@[simp] theorem beginMessage_inp (bytes : Bytes) : (beginMessage bytes).inp = bytes := rfl
@[simp] theorem beginMessage_pos (bytes : Bytes) : (beginMessage bytes).pos = 0 := rfl
@[simp] theorem beginMessage_out (bytes : Bytes) : (beginMessage bytes).out = [] := rfl

end Sys2Proof.Machine
end

