-- ==== Sys2Proof/Laws/Memory.lean ====
section
/-! SUPPORT. The platform's memory view: every store keeps the canonical form, and a read after a store gives the
byte stored, at the address stored to and nowhere else. -/
namespace Sys2Proof.Machine

theorem Memory.wf_cons {cell : Host.Cell} {m : Memory} :
    Memory.wf (cell :: m) = true ↔ (∀ c ∈ m, cell.1 < c.1) ∧ Memory.wf m = true := by
  simp [Memory.wf]

theorem Memory.mem_write {m : Memory} {a : Nat} {b : Byte} {c : Host.Cell} (h : c ∈ Memory.write m a b) :
    c = (a, b) ∨ c ∈ m := by
  induction m with
  | nil => simpa [Memory.write] using h
  | cons cell m ih =>
    simp only [Memory.write] at h
    split at h
    · simpa using h
    · split at h
      · simp only [List.mem_cons] at h ⊢
        tauto
      · simp only [List.mem_cons] at h ⊢
        rcases h with h | h
        · exact .inr (.inl h)
        · exact (ih h).imp_right .inr

theorem Memory.wf_write {m : Memory} (h : Memory.wf m = true) (a : Nat) (b : Byte) :
    Memory.wf (Memory.write m a b) = true := by
  induction m with
  | nil => simp [Memory.write, Memory.wf]
  | cons cell m ih =>
    obtain ⟨hlt, hm⟩ := Memory.wf_cons.mp h
    simp only [Memory.write]
    split
    · next ha =>
      refine Memory.wf_cons.mpr ⟨fun c hc => ?_, h⟩
      rcases List.mem_cons.mp hc with rfl | hc
      · exact ha
      · exact ha.trans (hlt c hc)
    · split
      · next ha => exact Memory.wf_cons.mpr ⟨fun c hc => ha ▸ hlt c hc, hm⟩
      · next h1 h2 =>
        refine Memory.wf_cons.mpr ⟨fun c hc => ?_, ih hm⟩
        rcases Memory.mem_write hc with rfl | hc
        · show cell.1 < a
          omega
        · exact hlt c hc

theorem Memory.wf_writeAll {m : Memory} (h : Memory.wf m = true) (base : Nat) (bs : Bytes) :
    Memory.wf (Memory.writeAll m base bs) = true := by
  induction bs generalizing m base with
  | nil => exact h
  | cons b bs ih => exact ih (Memory.wf_write h base b) (base + 1)

theorem Memory.read_write_self (m : Memory) (a : Nat) (b : Byte) :
    Memory.read (Memory.write m a b) a = some b := by
  induction m with
  | nil => simp [Memory.write, Memory.read]
  | cons cell m ih =>
    simp only [Memory.write]
    split
    · simp [Memory.read]
    · split
      · simp [Memory.read]
      · next h1 h2 => simp [Memory.read, Ne.symm h2, ih]

theorem Memory.read_write_of_ne (m : Memory) {a a' : Nat} (b : Byte) (h : a' ≠ a) :
    Memory.read (Memory.write m a b) a' = Memory.read m a' := by
  induction m with
  | nil => simp [Memory.write, Memory.read, h.symm]
  | cons cell m ih =>
    simp only [Memory.write]
    split
    · simp [Memory.read, h.symm]
    · split
      · next h1 h2 => simp [Memory.read, h.symm, h2 ▸ h.symm]
      · simp [Memory.read, ih]

theorem Memory.read_writeAll_below (bs : Bytes) (m : Memory) {base a : Nat} (h : a < base) :
    Memory.read (Memory.writeAll m base bs) a = Memory.read m a := by
  induction bs generalizing m base with
  | nil => rfl
  | cons b bs ih =>
    show Memory.read (Memory.writeAll (m.write base b) (base + 1) bs) a = _
    rw [ih _ (by omega), Memory.read_write_of_ne _ _ (by omega)]

theorem Memory.read_writeAll_above (bs : Bytes) (m : Memory) {base a : Nat} (h : base + bs.length ≤ a) :
    Memory.read (Memory.writeAll m base bs) a = Memory.read m a := by
  induction bs generalizing m base with
  | nil => rfl
  | cons b bs ih =>
    simp only [List.length_cons] at h
    show Memory.read (Memory.writeAll (m.write base b) (base + 1) bs) a = _
    rw [ih _ (by omega), Memory.read_write_of_ne _ _ (by omega)]

theorem Memory.read_writeAll_inside (bs : Bytes) (m : Memory) (base : Nat) {i : Nat} (h : i < bs.length) :
    Memory.read (Memory.writeAll m base bs) (base + i) = bs[i]? := by
  induction bs generalizing m base i with
  | nil => simp at h
  | cons b bs ih =>
    show Memory.read (Memory.writeAll (m.write base b) (base + 1) bs) (base + i) = _
    cases i with
    | zero => rw [Memory.read_writeAll_below _ _ (by omega)]; simpa using Memory.read_write_self m base b
    | succ i =>
      have := ih (m.write base b) (base + 1) (i := i) (by simpa using h)
      rw [show base + (i + 1) = base + 1 + i by omega, this]
      simp

/-- No placed space of the machine after reset lists a byte: the platform's image of it is the empty memory. -/
theorem platformImage_reset : platformImage State.reset = some [] := by decide

end Sys2Proof.Machine
end

