-- ==== Sys2Proof/Laws/Ops.lean ====
section
/-! SUPPORT. One lemma per shared operation that says everything it can do: the transactions on the selected
instance, the group port, the byte spaces, the choice of what happens next, and the meanings of the three
transactions. -/
namespace Sys2Proof.Machine

/-- A transaction on the selected instance that answers a next state had an instance to run on. -/
theorem onInst_next {s t : State} {f : SeqState → Host.Outcome State Fault Refusal} (h : onInst s f = .next t) :
    ∃ c, s.insts[s.sel]? = some c ∧ f c = .next t := by
  unfold onInst at h
  split at h
  · cases h
  · next c hc => exact ⟨c, hc, h⟩

/-- On an instance that exists, the transaction is its meaning on that instance's record. -/
theorem onInst_some {s : State} {c : SeqState} (h : s.insts[s.sel]? = some c)
    (f : SeqState → Host.Outcome State Fault Refusal) : onInst s f = f c := by
  simp [onInst, h]

/-- An instance number below the number of instances names one. -/
theorem exists_inst {s : State} (h : s.sel < s.insts.length) : ∃ c, s.insts[s.sel]? = some c :=
  ⟨s.insts[s.sel], List.getElem?_eq_getElem h⟩

/-- The group port answers a word by GROUP and changes nothing but the answer. -/
theorem groupPort_eq {s : State} (h : s.sel < s.insts.length) (w : Gcw) :
    groupPort w s = .next (s.respond (.group w (group w))) := by
  obtain ⟨c, hc⟩ := exists_inst h
  exact onInst_some hc _

/-- The group port, when it answers a next state. -/
theorem groupPort_next {w : Gcw} {s t : State} (h : groupPort w s = .next t) :
    t = s.respond (.group w (group w)) := by
  obtain ⟨c, -, h⟩ := onInst_next h
  cases h
  rfl

theorem foldl_emit (bs out : Bytes) : bs.foldl emit out = out ++ bs := by
  induction bs generalizing out with
  | nil => simp
  | cons b bs ih => simp [ih, emit]

/-- The emits of a STEP append the emitted lanes (R42, R114). -/
theorem emitAll_eq (out : Bytes) (r : GroupResult) : emitAll out r = out ++ emitted r := foldl_emit _ _

@[simp] theorem advance_out (c : SeqState) : (advance c).out = c.out ++ emitted (group (issue c).word) :=
  emitAll_eq _ _

/-- START, when it answers a next state (R111). -/
theorem execStart_next {bytes : Bytes} {s t : State} (h : execStart bytes s = .next t) :
    ∃ c, s.insts[s.sel]? = some c ∧ c.phase ≠ .busy ∧ s.cfg.accepts bytes.length = true ∧
      t = (s.setInst (beginMessage bytes)).respond .nothing := by
  obtain ⟨c, hc, h⟩ := onInst_next h
  by_cases hb : c.phase = .busy
  · simp [hb] at h
  · by_cases ha : s.cfg.accepts bytes.length = true
    · simp only [hb, ha, if_false, if_true, Host.Outcome.next.injEq] at h
      exact ⟨c, hc, hb, ha, h.symm⟩
    · simp [hb, ha] at h

/-- STEP, when it answers a next state (R114). -/
theorem execStep_next {s t : State} (h : execStep s = .next t) :
    ∃ c, s.insts[s.sel]? = some c ∧ c.phase = .busy ∧
      t = (s.setInst (advance c)).respond (.group (issue c).word (group (issue c).word)) := by
  obtain ⟨c, hc, h⟩ := onInst_next h
  by_cases hb : c.phase = .busy
  · simp only [hb, if_true, Host.Outcome.next.injEq] at h
    exact ⟨c, hc, hb, h.symm⟩
  · simp [hb] at h

/-- READ, when it answers a next state (R116). -/
theorem execRead_next {s t : State} (h : execRead s = .next t) :
    ∃ c, s.insts[s.sel]? = some c ∧ c.phase = .done ∧ t = s.respond (.output c.out) := by
  obtain ⟨c, hc, h⟩ := onInst_next h
  by_cases hb : c.phase = .done
  · simp only [hb, if_true, Host.Outcome.next.injEq] at h
    exact ⟨c, hc, hb, h.symm⟩
  · simp [hb] at h

/-- Everything an instruction can do when it answers a next state: the answer alone changes, or the selected
instance begins a message, or it advances by one group, or an ENCODE issues its first command and leaves the rest. -/
theorem exec_next {i : Instr} {s t : State} (h : exec i s = .next t) :
    (∃ r, t = s.respond r ∧ (∀ bytes, i ≠ .start bytes) ∧ ∀ k, deferred k i = []) ∨
    (∃ bytes c, i = .start bytes ∧ s.insts[s.sel]? = some c ∧ c.phase ≠ .busy ∧
      s.cfg.accepts bytes.length = true ∧ t = (s.setInst (beginMessage bytes)).respond .nothing) ∨
    (i = .step ∧ ∃ c, s.insts[s.sel]? = some c ∧ c.phase = .busy ∧
      t = (s.setInst (advance c)).respond (.group (issue c).word (group (issue c).word))) ∨
    (∃ bytes r, i = .encode bytes ∧ t = (s.encodeRest bytes).respond r) := by
  cases i with
  | enc3 b0 b1 b2 => exact .inl ⟨_, groupPort_next h, by simp, fun _ => rfl⟩
  | enc2 b0 b1 x2 => exact .inl ⟨_, groupPort_next h, by simp, fun _ => rfl⟩
  | enc1 b0 x1 x2 => exact .inl ⟨_, groupPort_next h, by simp, fun _ => rfl⟩
  | enc0 x0 x1 x2 => exact .inl ⟨_, groupPort_next h, by simp, fun _ => rfl⟩
  | start bytes =>
    obtain ⟨c, hc, hb, ha, ht⟩ := execStart_next h
    exact .inr (.inl ⟨bytes, c, rfl, hc, hb, ha, ht⟩)
  | step => exact .inr (.inr (.inl ⟨rfl, execStep_next h⟩))
  | read =>
    obtain ⟨c, -, -, ht⟩ := execRead_next h
    exact .inl ⟨_, ht, by simp, fun _ => rfl⟩
  | encode bytes => exact .inr (.inr (.inr ⟨bytes, _, rfl, groupPort_next h⟩))

/-- Everything that can happen next. -/
theorem fetch_cases (s : State) :
    (∃ p rest, s.agenda = .reset p :: rest ∧ fetch s = .settle ({ s with agenda := rest } : State).applyReset) ∨
    (∃ k m rest, s.agenda = .move k m :: rest ∧ fetch s = .run (fetchInstr m) { s with agenda := rest, sel := k }) ∨
    (∃ k, s.agenda = [] ∧ firstBusy s.insts = some k ∧ fetch s = .run .step { s with sel := k }) ∨
    (s.agenda = [] ∧ firstBusy s.insts = none ∧ fetch s = .settle s) := by
  unfold fetch
  split
  · next p rest h => exact .inl ⟨p, rest, h, rfl⟩
  · next k m rest h => exact .inr (.inl ⟨k, m, rest, h, rfl⟩)
  · next h =>
    cases hk : firstBusy s.insts with
    | none => exact .inr (.inr (.inr ⟨h, rfl, rfl⟩))
    | some k => exact .inr (.inr (.inl ⟨k, h, rfl, rfl⟩))

/-- A step that answers a next state: a reset, a move of the agenda, the STEP of a BUSY sequencer, or waiting. -/
theorem step_next {s t : State} (h : step s = .next t) :
    (∃ p rest, s.agenda = .reset p :: rest ∧ t = ({ s with agenda := rest } : State).applyReset) ∨
    (∃ k m rest, s.agenda = .move k m :: rest ∧ exec (fetchInstr m) { s with agenda := rest, sel := k } = .next t) ∨
    (∃ k, s.agenda = [] ∧ firstBusy s.insts = some k ∧ exec .step { s with sel := k } = .next t) ∨
    (s.agenda = [] ∧ firstBusy s.insts = none ∧ t = s) := by
  unfold step at h
  rcases fetch_cases s with ⟨p, rest, ha, hf⟩ | ⟨k, m, rest, ha, hf⟩ | ⟨k, ha, hk, hf⟩ | ⟨ha, hk, hf⟩ <;>
    rw [hf] at h
  · exact .inl ⟨p, rest, ha, (Host.Outcome.next.inj h).symm⟩
  · exact .inr (.inl ⟨k, m, rest, ha, h⟩)
  · exact .inr (.inr (.inl ⟨k, ha, hk, h⟩))
  · exact .inr (.inr (.inr ⟨ha, hk, (Host.Outcome.next.inj h).symm⟩))

/-- The first BUSY instance exists and is BUSY. -/
theorem firstBusy_some {insts : List SeqState} {k : Nat} (h : firstBusy insts = some k) :
    ∃ c, insts[k]? = some c ∧ c.phase = .busy := by
  unfold firstBusy at h
  obtain ⟨hk, hp, -⟩ := List.findIdx?_eq_some_iff_getElem.mp h
  exact ⟨insts[k], List.getElem?_eq_getElem hk, by simpa using hp⟩

/-- With no first BUSY instance, none is BUSY. -/
theorem firstBusy_none {insts : List SeqState} (h : firstBusy insts = none) {c : SeqState} (hc : c ∈ insts) :
    c.phase ≠ .busy := by
  unfold firstBusy at h
  have := List.findIdx?_eq_none_iff.mp h c hc
  simpa using this

end Sys2Proof.Machine
end

