-- ==== Sys2Proof/Laws/Message.lean ====
section
/-! SUPPORT. What a STEP issues, by the number of bytes that remain, and what the datapath emits. -/
namespace Sys2Proof.Machine

theorem countField_gcw (n : BitVec 2) (b0 b1 b2 : Byte) : countField (gcw n b0 b1 b2) = n := by
  ext i hi
  simp only [countField, gcw, BitVec.getElem_extractLsb', BitVec.getLsbD_append]
  rw [if_neg (by omega), if_neg (by omega), if_neg (by omega), ← BitVec.getLsbD_eq_getElem]
  congr 1
  omega

theorem byteField0_gcw (n : BitVec 2) (b0 b1 b2 : Byte) : byteField0 (gcw n b0 b1 b2) = b0 := by
  ext i hi
  simp only [byteField0, gcw, BitVec.getElem_extractLsb', BitVec.getLsbD_append]
  rw [if_neg (by omega), if_neg (by omega), if_pos (by omega), ← BitVec.getLsbD_eq_getElem]
  congr 1
  omega

theorem byteField1_gcw (n : BitVec 2) (b0 b1 b2 : Byte) : byteField1 (gcw n b0 b1 b2) = b1 := by
  ext i hi
  simp only [byteField1, gcw, BitVec.getElem_extractLsb', BitVec.getLsbD_append]
  rw [if_neg (by omega), if_pos (by omega), ← BitVec.getLsbD_eq_getElem]
  congr 1
  omega

theorem byteField2_gcw (n : BitVec 2) (b0 b1 b2 : Byte) : byteField2 (gcw n b0 b1 b2) = b2 := by
  ext i hi
  simp only [byteField2, gcw, BitVec.getElem_extractLsb', BitVec.getLsbD_append]
  rw [if_pos (by omega), ← BitVec.getLsbD_eq_getElem]
  congr 1
  omega

/-- The bits of a command word, lane by lane (R61). -/
theorem getLsbD_gcw (n : BitVec 2) (b0 b1 b2 : Byte) (i : Nat) :
    (gcw n b0 b1 b2).getLsbD i =
      if i < 8 then b2.getLsbD i else if i < 16 then b1.getLsbD (i - 8)
      else if i < 24 then b0.getLsbD (i - 16) else n.getLsbD (i - 24) := by
  simp only [gcw, BitVec.getLsbD_append]
  simp only [Nat.sub_sub, Nat.reduceAdd]
  by_cases h1 : i < 8
  · simp only [h1, if_true]
  by_cases h2 : i < 16
  · simp only [h1, h2, if_true, if_false, show i - 8 < 8 by omega]
  by_cases h3 : i < 24
  · simp only [h1, h2, h3, if_true, if_false, show ¬ i - 8 < 8 by omega, show i - 16 < 8 by omega]
  · simp only [h1, h2, h3, if_false, show ¬ i - 8 < 8 by omega, show ¬ i - 16 < 8 by omega]

/-- The bits of the packed value, lane by lane (R63). -/
theorem getLsbD_packed (n : BitVec 2) (b0 b1 b2 : Byte) (i : Nat) :
    (packed n b0 b1 b2).getLsbD i =
      if i < 8 then (lane2 n b2).getLsbD i else if i < 16 then (lane1 n b1).getLsbD (i - 8)
      else (lane0 n b0).getLsbD (i - 16) := by
  simp only [packed, BitVec.getLsbD_append]
  simp only [Nat.sub_sub, Nat.reduceAdd]
  by_cases h1 : i < 8
  · simp only [h1, if_true]
  by_cases h2 : i < 16
  · simp only [h1, h2, if_true, if_false, show i - 8 < 8 by omega]
  · simp only [h1, h2, if_false, show ¬ i - 8 < 8 by omega]

/-- The lanes of four bytes put together, most significant first, are those bytes (R62). -/
theorem lanes_append (c0 c1 c2 c3 : Byte) : lanes (c0 ++ c1 ++ c2 ++ c3) = [c0, c1, c2, c3] := by
  have bits (i : Nat) : (c0 ++ c1 ++ c2 ++ c3).getLsbD i =
      if i < 8 then c3.getLsbD i else if i < 16 then c2.getLsbD (i - 8)
      else if i < 24 then c1.getLsbD (i - 16) else c0.getLsbD (i - 24) := by
    simp only [BitVec.getLsbD_append]
    simp only [Nat.sub_sub, Nat.reduceAdd]
    by_cases h1 : i < 8
    · simp only [h1, if_true]
    by_cases h2 : i < 16
    · simp only [h1, h2, if_true, if_false, show i - 8 < 8 by omega]
    by_cases h3 : i < 24
    · simp only [h1, h2, h3, if_true, if_false, show ¬ i - 8 < 8 by omega, show i - 16 < 8 by omega]
    · simp only [h1, h2, h3, if_false, show ¬ i - 8 < 8 by omega, show ¬ i - 16 < 8 by omega]
  simp only [lanes, List.cons.injEq, and_true]
  refine ⟨?_, ?_, ?_, ?_⟩ <;> apply BitVec.eq_of_getLsbD_eq <;> intro i hi <;>
    simp only [BitVec.getLsbD_extractLsb', hi, decide_true, Bool.true_and] <;> erw [bits]
  · rw [if_neg (by omega), if_neg (by omega), if_neg (by omega)]
    congr 1
    omega
  · rw [if_neg (by omega), if_neg (by omega), if_pos (by omega)]
    congr 1
    omega
  · rw [if_neg (by omega), if_pos (by omega)]
    congr 1
    omega
  · rw [if_pos (by omega)]
    congr 1
    omega

/-- A result emits four lanes when n ≠ 0 and none when n = 0 (R62). -/
theorem length_emitted (w : Gcw) : (emitted (group w)).length = if countField w = 0 then 0 else 4 := by
  by_cases h : countField w = 0
  · simp [emitted, group, lanes, noutOf, h]
  · have hn : noutOf (countField w) = 4 := if_neg h
    simp only [emitted, group, hn, if_neg h]
    rfl

/-- Three or more bytes remain: ENC3, and the phase stays BUSY (R114). -/
theorem issue_full {c : SeqState} {b0 b1 b2 : Byte} {t : Bytes} (h : c.inp.drop c.pos = b0 :: b1 :: b2 :: t) :
    issue c = { word := gcw 3 b0 b1 b2, pos := c.pos + 3, phase := .busy } := by simp [issue, h]

/-- Two bytes remain: ENC2, and the message is done (R114). -/
theorem issue_two {c : SeqState} {b0 b1 : Byte} (h : c.inp.drop c.pos = [b0, b1]) :
    issue c = { word := gcw 2 b0 b1 0, pos := c.inp.length, phase := .done } := by simp [issue, h]

/-- One byte remains: ENC1, and the message is done (R114). -/
theorem issue_one {c : SeqState} {b0 : Byte} (h : c.inp.drop c.pos = [b0]) :
    issue c = { word := gcw 1 b0 0 0, pos := c.inp.length, phase := .done } := by simp [issue, h]

/-- Nothing remains: ENC0, and the message is done (R114). -/
theorem issue_none {c : SeqState} (h : c.inp.drop c.pos = []) :
    issue c = { word := gcw 0 0 0 0, pos := c.pos, phase := .done } := by simp [issue, h]

/-- The shapes of what remains of the input, with the number of bytes each holds. -/
theorem remaining_cases (bs : Bytes) :
    (∃ b0 b1 b2 t, bs = b0 :: b1 :: b2 :: t) ∨ (∃ b0 b1, bs = [b0, b1]) ∨ (∃ b0, bs = [b0]) ∨ bs = [] := by
  rcases bs with _ | ⟨b0, _ | ⟨b1, _ | ⟨b2, t⟩⟩⟩ <;> simp

@[simp] theorem encodeBytes_nil : encodeBytes [] = [] := by simp [encodeBytes]

@[simp] theorem encodeBytes_full (b0 b1 b2 : Byte) (t : Bytes) :
    encodeBytes (b0 :: b1 :: b2 :: t) = emitted (group (gcw 3 b0 b1 b2)) ++ encodeBytes t := by
  simp [encodeBytes]

@[simp] theorem gcws_full (b0 b1 b2 : Byte) (t : Bytes) :
    gcws (b0 :: b1 :: b2 :: t) = gcw 3 b0 b1 b2 :: gcws t := by simp [gcws]

end Sys2Proof.Machine
end

