-- ==== Sys2Proof/Laws/PerInstr.lean ====
section
/-! SUPPORT. The family Assembled, one lemma per constructor: an instruction's assembled form (don't-care lanes as
0x00, R68) is canonical, is the same command, and keeps having a command word exactly if the instruction has one. -/
namespace Sys2Proof.Laws.Assembled
open Sys2Proof

/-- The assembled form of an instruction is canonical and has a word exactly if the instruction is a group
command (R68, R65, R69). -/
def Statement (i : Instr) : Prop :=
  i.canonical.isCanonical = true ∧ i.canonical.isGroupCommand = i.isGroupCommand ∧
    (encode i.canonical).isSome = i.isGroupCommand

theorem enc3 (b0 b1 b2 : Byte) : Statement (.enc3 b0 b1 b2) := by
  refine ⟨by simp [Instr.isCanonical, Instr.canonical], rfl, rfl⟩
theorem enc2 (b0 b1 x2 : Byte) : Statement (.enc2 b0 b1 x2) := by
  refine ⟨by simp [Instr.isCanonical, Instr.canonical], rfl, rfl⟩
theorem enc1 (b0 x1 x2 : Byte) : Statement (.enc1 b0 x1 x2) := by
  refine ⟨by simp [Instr.isCanonical, Instr.canonical], rfl, rfl⟩
theorem enc0 (x0 x1 x2 : Byte) : Statement (.enc0 x0 x1 x2) := by
  refine ⟨by simp [Instr.isCanonical, Instr.canonical], rfl, rfl⟩
theorem start (bytes : Bytes) : Statement (.start bytes) := by
  refine ⟨by simp [Instr.isCanonical, Instr.canonical], rfl, rfl⟩
theorem step : Statement .step := by
  refine ⟨by simp [Instr.isCanonical, Instr.canonical], rfl, rfl⟩
theorem read : Statement .read := by
  refine ⟨by simp [Instr.isCanonical, Instr.canonical], rfl, rfl⟩
theorem encode (bytes : Bytes) : Statement (.encode bytes) := by
  refine ⟨by simp [Instr.isCanonical, Instr.canonical], rfl, rfl⟩

end Sys2Proof.Laws.Assembled
end

