-- ==== Sys2Proof/Tests/Slice0.lean ====
section
/-! SUPPORT. The model's own tests: words and results from 95_test_vectors.md and the rules' examples, one ill-formed
term for each check of WellFormed, and for every statement with hypotheses a state and operands that meet them. -/
namespace Sys2Proof.Tests
open Sys2Proof Sys2Proof.Machine

/-! ### WellFormed: what each check refuses -/

theorem test_no_instances_ill_formed : Config.wellFormed { maxInputLen := none, instances := 0, places := [] } = false := by
  decide
theorem test_one_instance_well_formed : Config.wellFormed Config.default = true := by decide
theorem test_start_over_limit_ill_formed :
    Instr.wellFormed { maxInputLen := some 1, instances := 1, places := [] } (.start [0x66, 0x6F]) = false := by decide
theorem test_start_at_limit_well_formed :
    Instr.wellFormed { maxInputLen := some 2, instances := 1, places := [] } (.start [0x66, 0x6F]) = true := by decide
theorem test_lane_not_zero_is_not_canonical : Instr.isCanonical (.enc2 0x66 0x6F 0x01) = false := by decide
theorem test_lane_zero_is_canonical : Instr.isCanonical (.enc2 0x66 0x6F 0x00) = true := by decide

/-! ### Decoding: words of 95_test_vectors.md section 2.3, bit by bit -/

theorem test_decode_enc3 : decode 0b11011000100110000101110010 = .enc3 0x62 0x61 0x72 := by decide
theorem test_decode_enc2 : decode 0b10111110111111111100000000 = .enc2 0xFB 0xFF 0x00 := by decide
theorem test_decode_enc1 : decode 0b01000100000000000000000000 = .enc1 0x10 0x00 0x00 := by decide
theorem test_decode_enc0 : decode 0b00111111111111111111111111 = .enc0 0xFF 0xFF 0xFF := by decide
theorem test_decode_table_word : decodeTableWord 32 0x3666F6F = some (.enc3 0x66 0x6F 0x6F) := by decide
/-- R66: container bits above 25 have no meaning. -/
theorem test_container_bits_ignored : decodeTableWord 32 0xFE666F00 = some (.enc2 0x66 0x6F 0x00) := by decide

/-! ### States -/

/-- The answer of a transition. -/
def answer : Host.Outcome State Fault Refusal → Response
  | .next s => s.resp
  | .fault _ => .nothing
  | .refused _ => .nothing

/-- Instance k after a transition. -/
def instAfter (k : Nat) : Host.Outcome State Fault Refusal → Option SeqState
  | .next s => s.insts[k]?
  | .fault _ => none
  | .refused _ => none

/-- "foobar" at the boundary of its second group, after P1's first STEP. -/
def foobarBusy : SeqState :=
  { phase := .busy, inp := [0x66, 0x6F, 0x6F, 0x62, 0x61, 0x72], pos := 3, out := [0x5A, 0x6D, 0x39, 0x76] }

/-- "fo" at the end of P6. -/
def foDone : SeqState := { phase := .done, inp := [0x66, 0x6F], pos := 2, out := [0x5A, 0x6D, 0x38, 0x3D] }

/-- Three instances: IDLE, BUSY, DONE. Inputs are limited to six bytes; instances 1 and 2 are placed in memory. -/
def three (sel : Nat) (agenda : List Tick) : State :=
  { cfg := { maxInputLen := some 6, instances := 3,
             places := [none, some { inBase := 0x100, outBase := 0x200 }, some { inBase := 0x210, outBase := 0x10 }] }
    insts := [SeqState.reset, foobarBusy, foDone], sel := sel, agenda := agenda, resp := .nothing }

/-- A BUSY instance alone, with the given input and pos. -/
def busyAt (bytes : Bytes) (pos : Nat) : SeqState := { phase := .busy, inp := bytes, pos := pos, out := [] }

/-- The machine with that one instance. -/
def oneBusy (bytes : Bytes) (pos : Nat) : State := { State.reset with insts := [busyAt bytes pos] }

/-! ### Instructions: 95_test_vectors.md sections 2.3 and 3 -/

theorem test_enc3 : answer (exec (.enc3 0x14 0xFB 0x9C) State.reset) =
    .group 0x314FB9C { grw := 0x46507563, nout := 4, ndata := 4, npad := 0 } := by decide
theorem test_enc2 : answer (exec (.enc2 0xFF 0xFF 0xCD) State.reset) =
    .group 0x2FFFFCD { grw := 0x5F5F383D, nout := 4, ndata := 3, npad := 1 } := by decide
theorem test_enc1 : answer (exec (.enc1 0xFF 0xAB 0xCD) State.reset) =
    .group 0x1FFABCD { grw := 0x5F773D3D, nout := 4, ndata := 2, npad := 2 } := by decide
theorem test_enc0 : answer (exec (.enc0 0x12 0x34 0x56) State.reset) =
    .group 0x0123456 { grw := 0, nout := 0, ndata := 0, npad := 0 } := by decide
theorem test_start : instAfter 0 (exec (.start [0x66, 0x6F]) State.reset) =
    some { phase := .busy, inp := [0x66, 0x6F], pos := 0, out := [] } := by decide
theorem test_start_over_limit : exec (.start [1, 2, 3, 4, 5, 6, 7]) (three 2 []) = .refused .tooLong := by rfl
/-- P1, STEP 2: "bar" is encoded by an ENC3, and the message stays BUSY with nothing left. -/
theorem test_step_full : instAfter 1 (exec .step (three 1 [])) =
    some { foobarBusy with pos := 6, out := [0x5A, 0x6D, 0x39, 0x76, 0x59, 0x6D, 0x46, 0x79] } := by decide
/-- P2, STEP 2: "ba" is encoded by an ENC2 and ends the message. -/
theorem test_step_two : instAfter 0 (exec .step (oneBusy [0x66, 0x6F, 0x6F, 0x62, 0x61] 3)) =
    some { phase := .done, inp := [0x66, 0x6F, 0x6F, 0x62, 0x61], pos := 5, out := [0x59, 0x6D, 0x45, 0x3D] } := by decide
theorem test_read : answer (exec .read (three 2 [])) = .output [0x5A, 0x6D, 0x38, 0x3D] := by decide
theorem test_read_before_done : exec .read (three 1 []) = .refused .readOutsideDone := by rfl
/-- P2 by ENCODE: "foo" is encoded by an ENC3, and the ENCODE of "ba" is the next step. -/
theorem test_encode_first : exec (.encode [0x66, 0x6F, 0x6F, 0x62, 0x61]) State.reset = .next { State.reset with
    agenda := [.move 0 (.encode [0x62, 0x61])]
    resp := .group 0x3666F6F { grw := 0x5A6D3976, nout := 4, ndata := 4, npad := 0 } } := by rfl
theorem test_encode_words : gcws [0x66, 0x6F, 0x6F, 0x62, 0x61] = [0x3666F6F, 0x2626100] := by decide
/-- P7: each word of a sequence that breaks R157 has exactly the result rule R100 gives. -/
theorem test_port_sequence : (emitted (group 0x1660000), emitted (group 0x3666F6F)) =
    ([0x5A, 0x67, 0x3D, 0x3D], [0x5A, 0x6D, 0x39, 0x76]) := by decide
/-- The word driven on the port is the first thing a machine after reset runs. -/
theorem test_first_word : answer (step (State.reset.withFetchWord 32 0x1100000)) =
    .group 0x1100000 { grw := 0x45413D3D, nout := 4, ndata := 2, npad := 2 } := by decide
/-- P6: reset in BUSY discards the message. -/
theorem test_reset_in_busy : instAfter 1 (step (three 1 [.reset (some (1, .seqStep))])) = some SeqState.reset := by decide

/-! ### Assembler: R68, R69 -/

/-- `ENC2 'f', 111 ; fo` -/
theorem test_assemble_enc2 : assembleLine
    ['E', 'N', 'C', '2', ' ', apostrophe, 'f', apostrophe, ',', ' ', '1', '1', '1', ' ', ';', ' ', 'f', 'o'] =
    .ok (some (.enc2 0x66 0x6F 0x00)) := by decide
/-- `START "fo"` -/
theorem test_assemble_start_text : assembleLine
    ['S', 'T', 'A', 'R', 'T', ' ', doubleQuote, 'f', 'o', doubleQuote] = .ok (some (.start [0x66, 0x6F])) := by decide
/-- `START []` -/
theorem test_assemble_start_empty : assembleLine ['S', 'T', 'A', 'R', 'T', ' ', '[', ']'] = .ok (some (.start [])) := by decide
/-- `ENC1 256` -/
theorem test_assemble_no_byte : assembleLine ['E', 'N', 'C', '1', ' ', '2', '5', '6'] = .error .notAByte := by decide
/-- `ENC1 0x0A, 0x0B` -/
theorem test_assemble_too_many : assembleLine
    ['E', 'N', 'C', '1', ' ', '0', 'x', '0', 'A', ',', '0', 'x', '0', 'B'] = .error .badOperands := by decide
/-- `STEP` is written by nobody. -/
theorem test_assemble_step : assembleLine ['S', 'T', 'E', 'P'] = .error .unknownMnemonic := by decide

/-! ### Witnesses: states and operands that meet the hypotheses of each statement -/

theorem witness_DecodeOfEncodedInstruction : encode (.enc1 0xFF 0xAB 0xCD) = some 0x1FFABCD := by decide
theorem witness_EveryWordIsOneCommand : encode (.enc0 0x12 0x34 0x56) = some 0x0123456 := by decide
theorem witness_AssembleOfDisassembled :
    disassemble (.enc0 1 2 3) = some ['E', 'N', 'C', '0'] ∧
    Instr.canonical (.enc1 0xFF 1 2) = Instr.canonical (.enc1 0xFF 3 4) ∧
    disassemble (.enc1 0xFF 1 2) = disassemble (.enc1 0xFF 3 4) ∧ disassemble .step = none := by decide
theorem witness_LutIsInjective : lut 63 = lut 63 := rfl
theorem witness_ZeroFilledSextets : ndataOf 1 ≤ 2 ∧ ndataOf 2 ≤ 3 ∧ ndataOf 0 ≤ 0 := by decide
theorem witness_SextetsOfLanes : (1 : BitVec 3) < ndataOf 1 ∧ (2 : BitVec 3) < ndataOf 2 ∧ (3 : BitVec 3) < ndataOf 3 := by
  decide
theorem witness_GroupLanes : (1 : BitVec 2) ≠ 0 ∧ (3 : BitVec 2) ≠ 0 := by decide
theorem witness_Enc3Completes : State.reset.sel < State.reset.insts.length := by decide
theorem witness_Enc2Completes : (three 1 []).sel < (three 1 []).insts.length := by decide
theorem witness_Enc1Completes : (three 2 []).sel < (three 2 []).insts.length := by decide
theorem witness_Enc0Completes : (three 0 []).sel < (three 0 []).insts.length := by decide
theorem witness_GroupCommandsReadNoState : Instr.isGroupCommand (.enc3 1 2 3) = true ∧
    (three 1 []).sel < (three 1 []).insts.length ∧ State.reset.sel < State.reset.insts.length := by decide
theorem witness_DontCareLanesChangeNoResult : Instr.canonical (.enc2 0xFF 0xFF 0x00) = Instr.canonical (.enc2 0xFF 0xFF 0xCD) ∧
    encode (.enc2 0xFF 0xFF 0x00) = some 0x2FFFF00 ∧ encode (.enc2 0xFF 0xFF 0xCD) = some 0x2FFFFCD := by decide
theorem witness_PartialGroupsComeLast_closed : (∀ w ∈ ([0x3666F6F] : List Gcw), countField w = 3) ∧
    countField 0x2626100 ≠ 3 := ⟨List.forall_mem_singleton.mpr (by decide), by decide⟩
theorem witness_PartialGroupsComeLast_interior : (countField 0x1660000 = 1 ∨ countField 0x1660000 = 2) ∧
    (0x3666F6F : Gcw) ∈ ([0x3666F6F] : List Gcw) ∧ countField 0x3666F6F ≠ 0 := by decide
theorem witness_EncodeCompletes : (three 0 []).sel < (three 0 []).insts.length ∧
    gcws [0x66, 0x6F, 0x6F, 0x62] = 0x3666F6F :: [0x1620000] := by decide
theorem witness_EncodeCompletes_run : 1 < (three 0 [.move 1 (.encode [0x66, 0x6F, 0x6F, 0x62])]).insts.length ∧
    (three 0 [.move 1 (.encode [0x66, 0x6F, 0x6F, 0x62])]).agenda = .move 1 (.encode [0x66, 0x6F, 0x6F, 0x62]) :: [] ∧
    (gcws [0x66, 0x6F, 0x6F, 0x62])[1]? = some 0x1620000 := by decide
theorem witness_StartBeginsMessage_idle : (three 0 []).insts[(three 0 []).sel]? = some SeqState.reset ∧
    (SeqState.reset.phase = .idle ∨ SeqState.reset.phase = .done) ∧
    (three 0 []).cfg.maxInputLen = some 6 ∧ ([1, 2, 3, 4, 5, 6] : Bytes).length ≤ 6 := by decide
theorem witness_StartBeginsMessage_done : (three 2 []).insts[(three 2 []).sel]? = some foDone ∧
    (foDone.phase = .idle ∨ foDone.phase = .done) ∧ (three 2 []).cfg.maxInputLen = some 6 ∧ ([] : Bytes).length ≤ 6 := by
  decide
theorem witness_StartBeginsMessage_unbounded : State.reset.insts[State.reset.sel]? = some SeqState.reset ∧
    State.reset.cfg.maxInputLen = none := by decide
theorem witness_StartOverLimitRefused : (three 2 []).insts[(three 2 []).sel]? = some foDone ∧ foDone.phase ≠ .busy ∧
    (three 2 []).cfg.maxInputLen = some 6 ∧ 6 < ([1, 2, 3, 4, 5, 6, 7] : Bytes).length := by decide
theorem witness_NoMoveOutsidePhase_busy : (three 1 []).insts[(three 1 []).sel]? = some foobarBusy ∧
    foobarBusy.phase = .busy ∧ foobarBusy.phase ≠ .done := by decide
theorem witness_NoMoveOutsidePhase_step : (three 2 []).insts[(three 2 []).sel]? = some foDone ∧ foDone.phase ≠ .busy := by
  decide
theorem witness_NoSuchInstanceRefused : (three 3 []).insts.length ≤ (three 3 []).sel := by decide
theorem witness_StepEncodesNextGroup_full : (three 1 []).insts[(three 1 []).sel]? = some foobarBusy ∧
    foobarBusy.phase = .busy ∧ foobarBusy.pos + 3 ≤ foobarBusy.inp.length := by decide
theorem witness_StepEncodesNextGroup_two : (oneBusy [0x66, 0x6F] 0).insts[(oneBusy [0x66, 0x6F] 0).sel]? =
    some (busyAt [0x66, 0x6F] 0) ∧ (busyAt [0x66, 0x6F] 0).phase = .busy ∧
    (busyAt [0x66, 0x6F] 0).pos + 2 = (busyAt [0x66, 0x6F] 0).inp.length := by decide
theorem witness_StepEncodesNextGroup_one : (oneBusy [0xFF] 0).insts[(oneBusy [0xFF] 0).sel]? = some (busyAt [0xFF] 0) ∧
    (busyAt [0xFF] 0).phase = .busy ∧ (busyAt [0xFF] 0).pos + 1 = (busyAt [0xFF] 0).inp.length := by decide
theorem witness_StepEncodesNextGroup_none : (oneBusy [] 0).insts[(oneBusy [] 0).sel]? = some (busyAt [] 0) ∧
    (busyAt [] 0).phase = .busy ∧ (busyAt [] 0).pos = (busyAt [] 0).inp.length := by decide
theorem witness_ReadReturnsOutput : (three 2 []).insts[(three 2 []).sel]? = some foDone ∧ foDone.phase = .done ∧
    ∃ t, exec .read (three 2 []) = .next t := ⟨by decide, by decide, _, rfl⟩
theorem witness_HostSeesPhaseAndOutput : (busyAt [] 0).phase = foobarBusy.phase ∧ (busyAt [] 0).phase ≠ .done ∧
    foDone.phase = .done := by decide
theorem witness_WholeGroupsUnpadded : ([0xFF, 0xFF, 0xFF] : Bytes).length % 3 = 0 := by decide
theorem witness_EncodeSplitsAtGroups : ([0x14, 0xFB, 0x9C] : Bytes).length % 3 = 0 ∧
    3 * 1 ≤ ([0x14, 0xFB, 0x9C, 0x03] : Bytes).length ∧ 3 * 1 ≤ ([0x14, 0xFB, 0x9C] : Bytes).length ∧
    ([0x14, 0xFB, 0x9C, 0x03] : Bytes).take (3 * 1) = ([0x14, 0xFB, 0x9C] : Bytes).take (3 * 1) := by decide
theorem witness_MessageIssuesGcws : 1 ≤ ([1, 2, 3, 4] : Bytes).length / 3 ∧ 0 < ([1, 2, 3, 4] : Bytes).length / 3 := by decide
theorem witness_StepRunsDecodedInstruction :
    (three 0 [.move 1 (.port 0x3666F6F)]).agenda = .move 1 (.port 0x3666F6F) :: [] ∧
    (three 0 [.move 2 (.start [])]).agenda = .move 2 (.start []) :: [] ∧
    (three 0 [.move 1 .seqStep]).agenda = .move 1 .seqStep :: [] ∧ (three 0 [.move 2 .read]).agenda = .move 2 .read :: [] ∧
    (three 0 [.move 0 (.encode [])]).agenda = .move 0 (.encode []) :: [] := by decide
theorem witness_SequencersMoveAlone_busy : (three 0 []).agenda = [] ∧ (three 0 []).insts[1]? = some foobarBusy ∧
    foobarBusy.phase = .busy ∧ (three 0 []).insts[0]? = some SeqState.reset ∧ SeqState.reset.phase ≠ .busy := by decide
theorem witness_SequencersMoveAlone_none : State.reset.agenda = [] ∧ ∀ c ∈ State.reset.insts, c.phase ≠ .busy := by decide
theorem witness_ResetClearsEveryInstance : (three 1 [.reset (some (1, .seqStep))]).agenda = .reset (some (1, .seqStep)) :: [] := by
  decide
theorem witness_MessageAfterReset : 1 < (three 0 (.reset none :: messageAgenda 1 [0xFF] ++ [])).insts.length ∧
    (three 0 []).cfg.accepts ([0xFF] : Bytes).length = true ∧
    (three 0 (.reset none :: messageAgenda 1 [0xFF] ++ [])).agenda = .reset none :: messageAgenda 1 [0xFF] ++ [] := by decide
theorem witness_MessageReturnsEncoding : (three 0 (messageAgenda 2 [0xFF])).insts[2]? = some foDone ∧ foDone.phase ≠ .busy ∧
    (three 0 []).cfg.accepts ([0xFF] : Bytes).length = true ∧
    (three 0 (messageAgenda 2 [0xFF])).agenda = messageAgenda 2 [0xFF] ++ [] := by decide
theorem witness_EveryMessageReachesDone : (three 0 []).agenda = [] ∧ (three 0 []).insts[1]? = some foobarBusy ∧
    foobarBusy.phase = .busy := by decide
theorem witness_inv : (three 0 []).Inv := by
  refine ⟨by decide, by decide, by decide, fun c hc => ?_⟩
  simp only [three, List.mem_cons, List.not_mem_nil, or_false] at hc
  rcases hc with rfl | rfl | rfl <;> simp [SeqState.Inv, SeqState.reset, foobarBusy, foDone, groupsOf, Config.accepts, three]
theorem witness_StepKeepsInvariant : (three 0 []).Inv ∧ ∃ t, step (three 0 []) = .next t := ⟨witness_inv, _, rfl⟩
theorem witness_ResetValues : (three 0 []).cfg.wellFormed = true ∧ encode (.enc0 1 2 3) = some 0x0010203 := by decide
theorem witness_ResetMeetsInvariant : (three 0 []).cfg.wellFormed = true ∧ Config.default.wellFormed = true := by decide
theorem witness_StepKeepsOutputsRight : (three 0 []).OutputsRight ∧ ∃ t, step (three 0 []) = .next t := by
  refine ⟨fun c hc => ?_, _, rfl⟩
  simp only [three, List.mem_cons, List.not_mem_nil, or_false] at hc
  rcases hc with rfl | rfl | rfl
  · rfl
  · exact ⟨by decide, by decide, by decide⟩
  · show foDone.out = encodeBytes foDone.inp
    decide
theorem witness_ParametersNeverChange : ∃ t, step (three 0 [.move 0 (.start [0xFF])]) = .next t := ⟨_, rfl⟩
theorem witness_OtherInstancesUntouched : (∃ t, exec .step (three 1 []) = .next t) ∧
    ({ three 1 [] with insts := [foDone, foobarBusy] } : State).insts[1]? = (three 1 []).insts[1]? := ⟨⟨_, rfl⟩, by decide⟩
theorem witness_InstancesCommute : ∃ t u, exec .step { three 0 [] with sel := 1 } = .next t ∧
    exec (.start [0xFF]) { t with sel := 2 } = .next u := ⟨_, _, rfl, rfl⟩
theorem witness_InterleavingIsInvisible : ∃ t, Host.Core.run Sys2Proof.core
    (three 0 [.move 2 (.start [0xFF]), .move 0 (.encode [1, 2, 3]), .move 2 .seqStep]).agendaSteps
    (three 0 [.move 2 (.start [0xFF]), .move 0 (.encode [1, 2, 3]), .move 2 .seqStep]) = .next t := ⟨_, rfl⟩
theorem witness_DonePersists : (∃ t, step (three 0 [.move 2 .read]) = .next t) ∧
    (three 0 [.move 2 .read]).insts[2]? = some foDone ∧ foDone.phase = .done ∧
    (three 0 [.move 2 .read]).restartsNext 2 = false := ⟨⟨_, rfl⟩, by decide⟩
theorem witness_BusyInputIsStable : (∃ t, step (three 0 [.move 1 .seqStep]) = .next t) ∧
    (three 0 [.move 1 .seqStep]).insts[1]? = some foobarBusy ∧ foobarBusy.phase = .busy ∧
    ∀ p rest, (three 0 [.move 1 .seqStep]).agenda ≠ .reset p :: rest :=
  ⟨⟨_, rfl⟩, by decide, by decide, by simp [three]⟩
theorem witness_OutcomesAreClosed_limit : step (three 0 [.move 2 (.start [1, 2, 3, 4, 5, 6, 7])]) = .refused .tooLong := by rfl
theorem witness_OutcomesAreClosed_start : step (three 0 [.move 1 (.start [])]) = .refused .startWhileBusy := by rfl
theorem witness_OutcomesAreClosed_read : step (three 0 [.move 1 .read]) = .refused .readOutsideDone := by rfl
theorem witness_OutcomesAreClosed_step : step (three 0 [.move 2 .seqStep]) = .refused .stepOutsideBusy := by rfl
theorem witness_OutcomesAreClosed_absent : step (three 0 [.move 3 .read]) = .refused .noSuchInstance := by rfl
/-- The placed spaces touch without overlapping: instance 1's OUT ends at 0x208, instance 2's IN starts at 0x210. -/
theorem witness_PlatformImageShowsSpaces : (three 0 []).Inv ∧ (platformImage (three 0 [])).isSome = true ∧
    (three 0 []).insts[2]? = some foDone ∧
    (three 0 []).cfg.places[2]? = some (some { inBase := 0x210, outBase := 0x10 }) := ⟨witness_inv, by decide⟩
/-- Spaces that overlap have no image (I4). -/
theorem test_overlap_has_no_image : platformImage { oneBusy [1, 2, 3] 0 with
    cfg := { maxInputLen := none, instances := 1, places := [some { inBase := 0, outBase := 2 }] } } = none := by decide

end Sys2Proof.Tests
end

section
/-! PROOFS of the family 00_scope.md: the parameters and the number of instances (R7, R21). -/
namespace Sys2Proof.Machine

/-- R7: an instruction writes an instance's record at most in place, so it adds and removes none. -/
theorem exec_keeps_parameters {i : Instr} {s t : State} (h : exec i s = .next t) :
    t.cfg = s.cfg ∧ t.insts.length = s.insts.length := by
  obtain ⟨r, rfl, -, -⟩ | ⟨bytes, c, -, -, -, -, rfl⟩ | ⟨-, c, -, -, rfl⟩ | ⟨bytes, r, -, rfl⟩ := exec_next h
  · exact ⟨rfl, rfl⟩
  · simp
  · simp
  · simp

/-- Settles O53: a reset maps over the instances, a move and a BUSY sequencer's STEP run an instruction, and a wait
changes nothing. -/
theorem parametersNeverChange : Obligations.ParametersNeverChange := by
  intro s t h
  obtain ⟨p, rest, -, rfl⟩ | ⟨k, m, rest, -, hx⟩ | ⟨k, -, -, hx⟩ | ⟨-, -, rfl⟩ := step_next h
  · simp
  · simpa using exec_keeps_parameters hx
  · simpa using exec_keeps_parameters hx
  · exact ⟨rfl, rfl⟩

end Sys2Proof.Machine
end

section
/-! PROOFS of the family 10_state.md: the invariant of the sequencer state (R29), the reset values (R33), each
of the instances apart from the others (R34), what the host sees (R25), and the placed spaces as memory (R28). -/
namespace Sys2Proof.Machine

/-! ### The invariant, phase by phase -/

theorem SeqState.inv_of_busy {c : SeqState} (h : c.phase = .busy) :
    c.Inv ↔ c.pos % 3 = 0 ∧ c.pos ≤ c.inp.length ∧ c.out.length = c.pos / 3 * 4 := by simp [SeqState.Inv, h]

theorem SeqState.inv_of_done {c : SeqState} (h : c.phase = .done) :
    c.Inv ↔ c.pos = c.inp.length ∧ c.out.length = groupsOf c.inp.length * 4 := by simp [SeqState.Inv, h]

theorem SeqState.reset_inv : SeqState.reset.Inv := ⟨rfl, rfl, rfl⟩

theorem SeqState.reset_outputRight : SeqState.reset.OutputRight := rfl

theorem beginMessage_inv (bytes : Bytes) : (beginMessage bytes).Inv :=
  (SeqState.inv_of_busy rfl).mpr (by simp)

/-- R114: an ENC3 moves `pos` by 3 and emits 4 bytes; the closing command of R115 consumes what remains, and emits 4
bytes exactly if something does. -/
theorem advance_inv {c : SeqState} (hb : c.phase = .busy) (h : c.Inv) : (advance c).Inv := by
  obtain ⟨hmod, hle, hlen⟩ := (SeqState.inv_of_busy hb).mp h
  have hrest : (c.inp.drop c.pos).length = c.inp.length - c.pos := List.length_drop
  obtain ⟨b0, b1, b2, t, hd⟩ | ⟨b0, b1, hd⟩ | ⟨b0, hd⟩ | hd := remaining_cases (c.inp.drop c.pos) <;>
    rw [hd] at hrest <;> simp only [List.length_cons, List.length_nil] at hrest
  · have hi := issue_full hd
    have hout : (advance c).out.length = c.out.length + 4 := by simp [hi, length_emitted, countField_gcw]
    rw [SeqState.inv_of_busy (by simp [hi]), hout]
    simp only [advance_pos, advance_inp, hi]
    omega
  · have hi := issue_two hd
    have hout : (advance c).out.length = c.out.length + 4 := by simp [hi, length_emitted, countField_gcw]
    rw [SeqState.inv_of_done (by simp [hi]), hout]
    simp only [advance_pos, advance_inp, hi, groupsOf, true_and]
    omega
  · have hi := issue_one hd
    have hout : (advance c).out.length = c.out.length + 4 := by simp [hi, length_emitted, countField_gcw]
    rw [SeqState.inv_of_done (by simp [hi]), hout]
    simp only [advance_pos, advance_inp, hi, groupsOf, true_and]
    omega
  · have hi := issue_none hd
    have hout : (advance c).out.length = c.out.length := by simp [hi, length_emitted, countField_gcw]
    rw [SeqState.inv_of_done (by simp [hi]), hout]
    simp only [advance_pos, advance_inp, hi, groupsOf]
    omega

/-- R7: the empty input is within every limit. -/
theorem Config.accepts_zero (cfg : Config) : cfg.accepts 0 = true := by
  unfold Config.accepts
  split <;> simp

/-- A write of the selected instance keeps the machine's invariant if what is written meets R29 and R112. -/
theorem State.Inv.setInst {s : State} (hs : s.Inv) {d : SeqState} (hd : d.Inv)
    (ha : s.cfg.accepts d.inp.length = true) : (s.setInst d).Inv := by
  obtain ⟨hw, hlen, hsel, hc⟩ := hs
  refine ⟨hw, by simpa using hlen, by simpa using hsel, fun c hm => ?_⟩
  obtain hm | rfl := List.mem_or_eq_of_mem_set hm
  · exact hc c hm
  · exact ⟨hd, ha⟩

theorem exec_keeps_inv {i : Instr} {s t : State} (hs : s.Inv) (h : exec i s = .next t) : t.Inv := by
  obtain ⟨r, rfl, -, -⟩ | ⟨bytes, c, -, -, -, ha, rfl⟩ | ⟨-, c, hc, hb, rfl⟩ | ⟨bytes, r, -, rfl⟩ := exec_next h
  · exact hs
  · exact hs.setInst (beginMessage_inv bytes) ha
  · have ⟨_, _, _, hall⟩ := hs
    obtain ⟨hi, ha⟩ := hall c (List.mem_of_getElem? hc)
    exact hs.setInst (advance_inv hb hi) ha
  · simpa [State.Inv] using hs

/-- R7: an instruction that answers a next state ran on an instance that exists. -/
theorem exec_next_inst {i : Instr} {s t : State} (h : exec i s = .next t) : ∃ c, s.insts[s.sel]? = some c := by
  cases i with
  | enc3 | enc2 | enc1 | enc0 | start | step | read =>
    obtain ⟨c, hc, -⟩ := onInst_next h
    exact ⟨c, hc⟩
  | encode bytes =>
    obtain ⟨c, hc, -⟩ := onInst_next h
    exact ⟨c, by simpa using hc⟩

theorem exec_next_sel_lt {i : Instr} {s t : State} (h : exec i s = .next t) : s.sel < s.insts.length := by
  obtain ⟨c, hc⟩ := exec_next_inst h
  exact (List.getElem?_eq_some_iff.mp hc).1

/-- Settles O50: a reset puts every instance at the values of R33, and a move or a BUSY sequencer's STEP runs an
instruction on an instance that exists. -/
theorem stepKeepsInvariant : Obligations.StepKeepsInvariant := by
  intro s t hs h
  obtain ⟨hw, hlen, hsel, hc⟩ := hs
  obtain ⟨p, rest, -, rfl⟩ | ⟨k, m, rest, -, hx⟩ | ⟨k, -, -, hx⟩ | ⟨-, -, rfl⟩ := step_next h
  · refine ⟨hw, by simpa using hlen, by simpa using hsel, fun c hm => ?_⟩
    obtain ⟨-, -, rfl⟩ := List.mem_map.mp hm
    exact ⟨SeqState.reset_inv, Config.accepts_zero _⟩
  · exact exec_keeps_inv (s := { s with agenda := rest, sel := k }) ⟨hw, hlen, exec_next_sel_lt hx, hc⟩ hx
  · exact exec_keeps_inv (s := { s with sel := k }) ⟨hw, hlen, exec_next_sel_lt hx, hc⟩ hx
  · exact ⟨hw, hlen, hsel, hc⟩

/-! ### Reset -/

/-- Settles O51: each instance is at the values of R33, and the first is selected, which exists by R7. -/
theorem resetMeetsInvariant : Obligations.ResetMeetsInvariant := by
  intro cfg hw
  have hall : ∀ c ∈ (State.resetWith cfg).insts, c = SeqState.reset := fun c hc => List.eq_of_mem_replicate hc
  refine ⟨⟨hw, by simp, ?_, fun c hc => ?_⟩, fun c hc => ?_⟩
  · simpa [Config.wellFormed, Nat.succ_le_iff] using hw
  · rw [hall c hc]
    exact ⟨SeqState.reset_inv, Config.accepts_zero cfg⟩
  · rw [hall c hc]
    exact SeqState.reset_outputRight

/-- R65, R107: an instruction with a word is that word driven on the group port. -/
theorem exec_of_encode {i : Instr} {w : Gcw} (h : encode i = some w) (s : State) : exec i s = groupPort w s := by
  cases i with
  | enc3 | enc2 | enc1 | enc0 =>
    cases h
    rfl
  | start | step | read | encode => cases h

/-- R80: the pseudocode's ranges and the table agree at each of the 64 indices. -/
theorem alphabet_getElem? (s : Sextet) : alphabet[s.toNat]? = some (lut s) := by
  revert s
  decide

/-- Settles O45: every instance is `SeqState.reset`, and the group port answers by the word alone. -/
theorem resetValues : Obligations.ResetValues := by
  refine ⟨fun cfg => ⟨by simp, fun c hc => ?_⟩, fun cfg hw i w hi => ?_, alphabet_getElem?, rfl⟩
  · obtain rfl : c = SeqState.reset := List.eq_of_mem_replicate hc
    exact ⟨rfl, rfl, rfl, rfl, rfl⟩
  · obtain ⟨⟨-, -, hsel, -⟩, -⟩ := resetMeetsInvariant cfg hw
    exact ⟨_, (exec_of_encode hi _).trans (groupPort_eq hsel w), rfl⟩

/-! ### The host's view -/

theorem hostView_of_not_done {c : SeqState} (h : c.phase ≠ .done) : hostView c = (phaseBits c.phase, none) := by
  simp [hostView, h]

theorem hostView_of_done {c : SeqState} (h : c.phase = .done) : hostView c = (0b10, some c.out) := by
  simp [hostView, h, phaseBits]

/-- Settles O34: outside DONE the view is made of the phase alone. -/
theorem hostSeesPhaseAndOutput : Obligations.HostSeesPhaseAndOutput := by
  refine ⟨fun c => rfl, fun c h => ?_, fun c d hp h => ?_, fun c h => hostView_of_done h⟩
  · rw [hostView_of_not_done h]
  · rw [hostView_of_not_done h, hostView_of_not_done (hp ▸ h), hp]

/-! ### One instance apart from the others

`effect` is an instruction as a function of the parameters and the selected instance's record alone; `exec_eq_conclude`
ties it to `exec`, so that what an instruction reads (R34) stands in its type. -/

/-- What an instruction makes of its instance's record and what it answers, or why it is refused. -/
def effect (cfg : Config) (c : SeqState) : Instr → Except Refusal (SeqState × Response)
  | .enc3 b0 b1 b2 => .ok (c, .group (gcw 3 b0 b1 b2) (group (gcw 3 b0 b1 b2)))
  | .enc2 b0 b1 x2 => .ok (c, .group (gcw 2 b0 b1 x2) (group (gcw 2 b0 b1 x2)))
  | .enc1 b0 x1 x2 => .ok (c, .group (gcw 1 b0 x1 x2) (group (gcw 1 b0 x1 x2)))
  | .enc0 x0 x1 x2 => .ok (c, .group (gcw 0 x0 x1 x2) (group (gcw 0 x0 x1 x2)))
  | .start bytes =>
    if c.phase = .busy then .error .startWhileBusy
    else if cfg.accepts bytes.length then .ok (beginMessage bytes, .nothing)
    else .error .tooLong
  | .step =>
    if c.phase = .busy then .ok (advance c, .group (issue c).word (group (issue c).word))
    else .error .stepOutsideBusy
  | .read => if c.phase = .done then .ok (c, .output c.out) else .error .readOutsideDone
  | .encode bytes =>
    .ok (c, .group (issue (beginMessage bytes)).word (group (issue (beginMessage bytes)).word))

/-- The state after an instruction whose instance's record becomes `d` and which answers `r`. -/
def State.afterEffect (s : State) (i : Instr) (d : SeqState) (r : Response) : State :=
  { s with insts := s.insts.set s.sel d, agenda := deferred s.sel i ++ s.agenda, resp := r }

@[simp] theorem State.afterEffect_cfg (s : State) (i : Instr) (d : SeqState) (r : Response) :
    (s.afterEffect i d r).cfg = s.cfg := rfl
@[simp] theorem State.afterEffect_insts (s : State) (i : Instr) (d : SeqState) (r : Response) :
    (s.afterEffect i d r).insts = s.insts.set s.sel d := rfl
@[simp] theorem State.afterEffect_sel (s : State) (i : Instr) (d : SeqState) (r : Response) :
    (s.afterEffect i d r).sel = s.sel := rfl
@[simp] theorem State.afterEffect_agenda (s : State) (i : Instr) (d : SeqState) (r : Response) :
    (s.afterEffect i d r).agenda = deferred s.sel i ++ s.agenda := rfl
@[simp] theorem State.afterEffect_resp (s : State) (i : Instr) (d : SeqState) (r : Response) :
    (s.afterEffect i d r).resp = r := rfl

/-- An effect carried out in a state. -/
def State.conclude (s : State) (i : Instr) : Except Refusal (SeqState × Response) → Host.Outcome State Fault Refusal
  | .ok (d, r) => .next (s.afterEffect i d r)
  | .error e => .refused e

/-- An instance's record written back as it was found is no write. -/
theorem State.afterEffect_same {s : State} {c : SeqState} (hc : s.insts[s.sel]? = some c) (i : Instr) (r : Response) :
    s.afterEffect i c r = { s with agenda := deferred s.sel i ++ s.agenda, resp := r } := by
  obtain ⟨hlt, rfl⟩ := List.getElem?_eq_some_iff.mp hc
  simp [State.afterEffect]

/-- R70: an ENCODE puts the rest of its commands on the agenda and does nothing else to the state. -/
theorem State.encodeRest_eq (s : State) (bytes : Bytes) :
    s.encodeRest bytes = { s with agenda := deferred s.sel (.encode bytes) ++ s.agenda } := by
  rw [← State.encodeRest_agenda]
  unfold State.encodeRest
  split <;> rfl

/-- An instruction on an instance that exists is its effect on that instance's record. -/
theorem exec_eq_conclude {s : State} {c : SeqState} (hc : s.insts[s.sel]? = some c) (i : Instr) :
    exec i s = s.conclude i (effect s.cfg c i) := by
  have hsel : s.sel < s.insts.length := (List.getElem?_eq_some_iff.mp hc).1
  cases i with
  | enc3 | enc2 | enc1 | enc0 =>
    refine (groupPort_eq hsel _).trans (congrArg _ ?_)
    rw [State.afterEffect_same hc]
    rfl
  | start bytes =>
    refine (onInst_some hc _).trans ?_
    simp only [effect]
    split_ifs <;> rfl
  | step =>
    refine (onInst_some hc _).trans ?_
    simp only [effect]
    split_ifs <;> rfl
  | read =>
    refine (onInst_some hc _).trans ?_
    simp only [effect]
    split_ifs
    · refine congrArg _ ?_
      rw [State.afterEffect_same hc]
      rfl
    · rfl
  | encode bytes =>
    refine (groupPort_eq (by simpa using hsel) _).trans (congrArg _ ?_)
    rw [State.afterEffect_same hc, State.encodeRest_eq]
    rfl

/-- R34: an instruction that answers a next state had its effect on the selected instance. -/
theorem exec_next_effect {i : Instr} {s t : State} (h : exec i s = .next t) :
    ∃ c d r, s.insts[s.sel]? = some c ∧ effect s.cfg c i = .ok (d, r) ∧ t = s.afterEffect i d r := by
  obtain ⟨c, hc⟩ := exec_next_inst h
  rw [exec_eq_conclude hc] at h
  match he : effect s.cfg c i with
  | .ok (d, r) =>
    rw [he] at h
    exact ⟨c, d, r, hc, he, (Host.Outcome.next.inj h).symm⟩
  | .error e =>
    rw [he] at h
    cases h

/-- Settles O54: `effect` reads the parameters and the selected record, so a state that agrees in these answers
alike. -/
theorem otherInstancesUntouched : Obligations.OtherInstancesUntouched := by
  intro i s t h
  obtain ⟨c, d, r, hc, he, rfl⟩ := exec_next_effect h
  have hsel : s.sel < s.insts.length := exec_next_sel_lt h
  refine ⟨fun k hk => List.getElem?_set_ne hk.symm, rfl, rfl, fun s' hcfg hs' hinst => ?_⟩
  have hc' : s'.insts[s'.sel]? = some c := hinst.trans hc
  have hsel' : s'.sel < s'.insts.length := (List.getElem?_eq_some_iff.mp hc').1
  refine ⟨s'.afterEffect i d r, ?_, ?_, rfl⟩
  · rw [exec_eq_conclude hc', hcfg, he]
    rfl
  · simp [← hs', hsel', hs' ▸ hsel]

/-! ### The placed spaces as memory -/

/-- What a space holds fits in the addresses it takes (R40). -/
def Span.Fits (sp : Span) : Prop := sp.bytes.length ≤ sp.size

/-- The spaces stored one after the other. -/
def Memory.place (m : Memory) (sps : List Span) : Memory := sps.foldl (fun m sp => m.writeAll sp.base sp.bytes) m

@[simp] theorem Memory.place_nil (m : Memory) : m.place [] = m := rfl
@[simp] theorem Memory.place_cons (m : Memory) (sp : Span) (sps : List Span) :
    m.place (sp :: sps) = (m.writeAll sp.base sp.bytes).place sps := rfl

/-- R28: an image is the placed spaces stored one after the other, no two of them overlapping. -/
theorem platformImage_eq_some {s : State} {m : Memory} (h : platformImage s = some m) :
    (spans s).Pairwise (fun a b => a.disjoint b = true) ∧ m = Memory.place [] (spans s) := by
  unfold platformImage at h
  split at h
  · next hd => exact ⟨of_decide_eq_true hd, (Option.some.inj h).symm⟩
  · cases h

theorem Memory.wf_place {m : Memory} (h : m.wf = true) (sps : List Span) : (m.place sps).wf = true := by
  induction sps generalizing m with
  | nil => exact h
  | cons sp sps ih => exact ih (Memory.wf_writeAll h sp.base sp.bytes)

/-- No address of one of two disjoint spaces is among the other's. -/
theorem Span.disjoint_address {a b : Span} (h : a.disjoint b = true) {i : Nat} (hi : i < a.size) :
    a.base + i < b.base ∨ b.base + b.size ≤ a.base + i := by
  simp only [Span.disjoint, Bool.or_eq_true, decide_eq_true_eq] at h
  omega

/-- Storing spaces disjoint from `a` leaves what reads at `a`'s addresses. -/
theorem Memory.read_place_of_disjoint {sps : List Span} (m : Memory) {a : Span} {i : Nat} (hi : i < a.size)
    (hd : ∀ sp ∈ sps, a.disjoint sp = true) (hf : ∀ sp ∈ sps, sp.Fits) :
    (m.place sps).read (a.base + i) = m.read (a.base + i) := by
  induction sps generalizing m with
  | nil => rfl
  | cons sp sps ih =>
    obtain ⟨hsp, hd⟩ := List.forall_mem_cons.mp hd
    obtain ⟨hfit, hf⟩ := List.forall_mem_cons.mp hf
    rw [Memory.place_cons, ih _ hd hf]
    obtain hlt | hge := Span.disjoint_address hsp hi
    · exact Memory.read_writeAll_below _ _ hlt
    · exact Memory.read_writeAll_above _ _ ((Nat.add_le_add_left hfit _).trans hge)

/-- Spaces stored without overlap each read back from their base on. -/
theorem Memory.read_place {sps : List Span} (m : Memory) (hd : sps.Pairwise fun a b => a.disjoint b = true)
    (hf : ∀ sp ∈ sps, sp.Fits) {a : Span} (ha : a ∈ sps) {i : Nat} (hi : i < a.bytes.length) :
    (m.place sps).read (a.base + i) = a.bytes[i]? := by
  induction sps generalizing m with
  | nil => cases ha
  | cons sp sps ih =>
    obtain ⟨hsp, hds⟩ := List.pairwise_cons.mp hd
    obtain ⟨hfit, hfs⟩ := List.forall_mem_cons.mp hf
    obtain rfl | ha := List.mem_cons.mp ha
    · rw [Memory.place_cons, Memory.read_place_of_disjoint _ (hi.trans_le hfit) hsp hfs]
      exact Memory.read_writeAll_inside _ _ _ hi
    · exact ih _ hds hfs ha

/-- R27, R29: OUT never outgrows the ceil(N/3)·4 addresses of its space. -/
theorem SeqState.Inv.out_le {c : SeqState} (h : c.Inv) : c.out.length ≤ groupsOf c.inp.length * 4 := by
  unfold SeqState.Inv at h
  split at h
  · obtain ⟨-, -, hout⟩ := h
    simp [hout]
  · obtain ⟨-, hle, hout⟩ := h
    simp only [groupsOf]
    omega
  · obtain ⟨-, hout⟩ := h
    exact hout.le

theorem spansOf_fits {c : SeqState} (h : c.Inv) (p : Placement) : ∀ sp ∈ spansOf c p, sp.Fits := by
  simpa [spansOf, Span.Fits] using h.out_le

theorem mem_spans {s : State} {sp : Span} :
    sp ∈ spans s ↔ ∃ c p, (c, some p) ∈ s.insts.zip s.cfg.places ∧ sp ∈ spansOf c p := by
  simp only [spans, List.mem_flatMap, Prod.exists]
  constructor
  · rintro ⟨c, _ | p, hz, hsp⟩
    · cases hsp
    · exact ⟨c, p, hz, hsp⟩
  · rintro ⟨c, p, hz, hsp⟩
    exact ⟨c, some p, hz, hsp⟩

theorem spans_fit {s : State} (h : s.Inv) : ∀ sp ∈ spans s, sp.Fits := by
  intro sp hsp
  obtain ⟨-, -, -, hall⟩ := h
  obtain ⟨c, p, hz, hsp⟩ := mem_spans.mp hsp
  obtain ⟨hc, -⟩ := hall c (List.of_mem_zip hz).1
  exact spansOf_fits hc p sp hsp

/-- Settles O60: the image stores disjoint spaces that fit, so each placed space reads back. -/
theorem platformImageShowsSpaces : Obligations.PlatformImageShowsSpaces := by
  intro s m hs hm
  obtain ⟨hd, rfl⟩ := platformImage_eq_some hm
  refine ⟨Memory.wf_place rfl _, fun k c p hc hp => ?_⟩
  have hz : (c, some p) ∈ s.insts.zip s.cfg.places :=
    List.mem_of_getElem? (List.getElem?_zip_eq_some.mpr ⟨hc, hp⟩)
  have reads {sp : Span} (hsp : sp ∈ spansOf c p) {i : Nat} (hi : i < sp.bytes.length) :
      (Memory.place [] (spans s)).read (sp.base + i) = sp.bytes[i]? :=
    Memory.read_place [] hd (spans_fit hs) (mem_spans.mpr ⟨c, p, hz, hsp⟩) hi
  exact ⟨fun i hi => reads (List.mem_cons_self ..) hi,
    fun j hj => reads (List.mem_cons_of_mem _ (List.mem_cons_self ..)) hj⟩

end Sys2Proof.Machine
end

section
/-! PROOFS of the family 20_memory.md: the instances share nothing (R57), and a BUSY instance keeps its input and only
appends to its output (R52, R26, R42). -/
namespace Sys2Proof.Machine

/-! ### A BUSY instance (R52, R26, R42) -/

/-- R26: a STEP never moves `pos` back. Where it sets `pos` to N, a byte at `pos` remains, so `pos` is below N. -/
theorem pos_le_advance_pos (c : SeqState) : c.pos ≤ (advance c).pos := by
  have hrest : (c.inp.drop c.pos).length = c.inp.length - c.pos := List.length_drop
  obtain ⟨b0, b1, b2, t, hd⟩ | ⟨b0, b1, hd⟩ | ⟨b0, hd⟩ | hd := remaining_cases (c.inp.drop c.pos) <;>
    rw [hd] at hrest <;> simp only [List.length_cons, List.length_nil] at hrest
  · simp [issue_full hd]
  · simp only [advance_pos, issue_two hd]
    omega
  · simp only [advance_pos, issue_one hd]
    omega
  · simp [issue_none hd]

/-- R113, R116: in BUSY there is no START and no READ; the STEP advances the record and a group command leaves it. -/
theorem effect_of_busy {cfg : Config} {c d : SeqState} {i : Instr} {r : Response} (hb : c.phase = .busy)
    (h : effect cfg c i = .ok (d, r)) : d = c ∨ d = advance c := by
  cases i with
  | enc3 | enc2 | enc1 | enc0 | encode =>
    cases h
    exact .inl rfl
  | start | read => simp [effect, hb] at h
  | step =>
    simp only [effect, hb, if_true, Except.ok.injEq, Prod.mk.injEq] at h
    obtain ⟨hd, -⟩ := h
    exact .inr hd.symm

/-- An instruction on any instance leaves a BUSY one's record as it is, or advances it by one group. -/
theorem exec_of_busy {i : Instr} {s t : State} {k : Nat} {c : SeqState} (h : exec i s = .next t)
    (hc : s.insts[k]? = some c) (hb : c.phase = .busy) :
    t.insts[k]? = some c ∨ t.insts[k]? = some (advance c) := by
  by_cases hk : k = s.sel
  · subst hk
    obtain ⟨c', d, r, hc', he, rfl⟩ := exec_next_effect h
    obtain rfl : c = c' := Option.some.inj (hc.symm.trans hc')
    have hd : (s.afterEffect i d r).insts[s.sel]? = some d := List.getElem?_set_self (exec_next_sel_lt h)
    obtain rfl | rfl := effect_of_busy hb he
    · exact .inl hd
    · exact .inr hd
  · obtain ⟨hframe, -⟩ := otherInstancesUntouched i s t h
    exact .inl ((hframe k hk).trans hc)

/-- The same of every step but a reset. -/
theorem step_of_busy {s t : State} {k : Nat} {c : SeqState} (h : step s = .next t) (hc : s.insts[k]? = some c)
    (hb : c.phase = .busy) (hr : ∀ p rest, s.agenda ≠ .reset p :: rest) :
    t.insts[k]? = some c ∨ t.insts[k]? = some (advance c) := by
  obtain ⟨p, rest, ha, -⟩ | ⟨j, m, rest, -, hx⟩ | ⟨j, -, -, hx⟩ | ⟨-, -, rfl⟩ := step_next h
  · exact absurd ha (hr p rest)
  · exact exec_of_busy hx hc hb
  · exact exec_of_busy hx hc hb
  · exact .inl hc

/-- Settles O58: the record is left as it is or advanced by one group, and `advance` writes no input, moves `pos`
forward and emits at the end of OUT. -/
theorem busyInputIsStable : Obligations.BusyInputIsStable := by
  intro s t k c h hc hb hr
  obtain hk | hk := step_of_busy h hc hb hr
  · exact ⟨c, [], hk, rfl, le_rfl, by simp⟩
  · exact ⟨advance c, _, hk, advance_inp c, pos_le_advance_pos c, advance_out c⟩

/-! ### Exchanging two instances' transactions (R57) -/

/-- An effect that the selected instance's record allows is carried out (R34). -/
theorem exec_of_effect {i : Instr} {s : State} {c d : SeqState} {r : Response} (hc : s.insts[s.sel]? = some c)
    (he : effect s.cfg c i = .ok (d, r)) : exec i s = .next (s.afterEffect i d r) := by
  rw [exec_eq_conclude hc, he]
  rfl

/-- R70: what an instruction defers is for its own instance. -/
theorem concerns_of_mem_deferred {l k : Nat} {i : Instr} {tick : Tick} (h : tick ∈ deferred k i) :
    tick.concerns l = decide (k = l) := by
  cases i with
  | enc3 | enc2 | enc1 | enc0 | start | step | read => cases h
  | encode bytes =>
    simp only [deferred] at h
    split at h
    · rw [List.mem_singleton.mp h]
      rfl
    · cases h

theorem filter_deferred_self (k : Nat) (i : Instr) :
    (deferred k i).filter (Tick.concerns k) = deferred k i :=
  List.filter_eq_self.mpr fun _ h => by simp [concerns_of_mem_deferred h]

theorem filter_deferred_of_ne {k l : Nat} (h : k ≠ l) (i : Instr) : (deferred k i).filter (Tick.concerns l) = [] :=
  List.filter_eq_nil_iff.mpr fun _ hm => by simp [concerns_of_mem_deferred hm, h]

/-- No instance sees in which order the deferred ticks of two instances are put on the agenda. -/
theorem filter_deferred_comm {j k : Nat} (hjk : j ≠ k) (i i' : Instr) (agenda : List Tick) (l : Nat) :
    (deferred j i ++ (deferred k i' ++ agenda)).filter (Tick.concerns l) =
      (deferred k i' ++ (deferred j i ++ agenda)).filter (Tick.concerns l) := by
  simp only [List.filter_append]
  by_cases hl : k = l
  · simp [filter_deferred_of_ne (hl ▸ hjk)]
  · simp [filter_deferred_of_ne hl]

/-- Settles O55: neither effect reads the record the other writes, so each is the same in either order, and the two
writes go to different places. -/
theorem instancesCommute : Obligations.InstancesCommute := by
  intro i i' s t u j k hjk ht hu
  obtain ⟨c, d, r, hc, he, rfl⟩ := exec_next_effect ht
  obtain ⟨c', d', r', hc', he', rfl⟩ := exec_next_effect hu
  replace hc' : s.insts[k]? = some c' := (List.getElem?_set_ne hjk).symm.trans hc'
  have hj : (s.insts.set k d')[j]? = some c := (List.getElem?_set_ne hjk.symm).trans hc
  exact ⟨_, _, exec_of_effect (s := { s with sel := k }) hc' he',
    exec_of_effect (s := { State.afterEffect { s with sel := k } i' d' r' with sel := j }) hj he,
    List.set_comm _ _ hjk.symm, rfl, filter_deferred_comm hjk i i' s.agenda, rfl, rfl⟩

/-! ### One instance without the others (R57, R139) -/

/-- `s'` is `s` as far as instance `k` goes, with the other instances' moves left out: the two agree in the
parameters, in the record of `k`, and in what is still to happen to it. -/
structure State.AloneAt (k : Nat) (s s' : State) : Prop where
  cfg : s'.cfg = s.cfg
  inst : s'.insts[k]? = s.insts[k]?
  agenda : s'.agenda = s.agenda.filter (Tick.concerns k)

@[simp] theorem Tick.concerns_reset (k : Nat) (p : Option (Nat × Move)) : (Tick.reset p).concerns k = true := rfl
@[simp] theorem Tick.concerns_move (k j : Nat) (m : Move) : (Tick.move j m).concerns k = decide (j = k) := rfl

theorem step_of_reset {s : State} {p : Option (Nat × Move)} {rest : List Tick} (h : s.agenda = .reset p :: rest) :
    step s = .next ({ s with agenda := rest } : State).applyReset := by
  simp [step, fetch, h]

theorem step_of_move {s : State} {k : Nat} {m : Move} {rest : List Tick} (h : s.agenda = .move k m :: rest) :
    step s = exec (fetchInstr m) { s with agenda := rest, sel := k } := by
  simp [step, fetch, h]

/-- R150: a reset reaches every instance alike. -/
theorem State.AloneAt.applyReset {k : Nat} {s s' : State} (h : s.AloneAt k s') :
    s.applyReset.AloneAt k s'.applyReset :=
  ⟨h.cfg, by simpa only [State.applyReset_insts, List.getElem?_map] using congrArg _ h.inst, h.agenda⟩

/-- R34: a move of another instance is not seen by instance `k`, neither now nor by what it defers. -/
theorem State.AloneAt.exec_other {i : Instr} {k : Nat} {s s' t : State} (h : s.AloneAt k s') (hk : s.sel ≠ k)
    (hx : exec i s = .next t) : t.AloneAt k s' := by
  obtain ⟨c, d, r, -, -, rfl⟩ := exec_next_effect hx
  refine ⟨h.cfg, ?_, ?_⟩
  · rw [State.afterEffect_insts, List.getElem?_set_ne hk, h.inst]
  · rw [State.afterEffect_agenda, List.filter_append, filter_deferred_of_ne hk, h.agenda, List.nil_append]

/-- R34: a move of instance `k` reads and writes only what the two states agree in. -/
theorem State.AloneAt.exec_own {i : Instr} {s s' t : State} (h : s.AloneAt s.sel s') (hsel : s'.sel = s.sel)
    (hx : exec i s = .next t) : ∃ t', exec i s' = .next t' ∧ t.AloneAt s.sel t' := by
  obtain ⟨c, d, r, hc, he, rfl⟩ := exec_next_effect hx
  have hc' : s'.insts[s'.sel]? = some c := by rw [hsel, h.inst, hc]
  refine ⟨_, exec_of_effect hc' (h.cfg ▸ he), h.cfg, ?_, ?_⟩
  · have hlt' : s'.sel < s'.insts.length := (List.getElem?_eq_some_iff.mp hc').1
    rw [State.afterEffect_insts, State.afterEffect_insts, List.getElem?_set_self (exec_next_sel_lt hx), ← hsel,
      List.getElem?_set_self hlt']
  · rw [State.afterEffect_agenda, State.afterEffect_agenda, List.filter_append, filter_deferred_self, h.agenda, hsel]

/-- One step of the whole agenda is one step of instance `k`'s own part of it, or none. -/
theorem State.AloneAt.step {k : Nat} {s s' t : State} (h : s.AloneAt k s') (hne : s.agenda ≠ [])
    (hs : step s = .next t) :
    t.AloneAt k s' ∨ s'.agenda ≠ [] ∧ ∃ t', Machine.step s' = .next t' ∧ t.AloneAt k t' := by
  match ha : s.agenda with
  | [] => exact absurd ha hne
  | .reset p :: rest =>
    have ha' : s'.agenda = .reset p :: rest.filter (Tick.concerns k) := by simp [h.agenda, ha, List.filter_cons]
    rw [step_of_reset ha] at hs
    cases hs
    exact .inr ⟨by simp [ha'], _, step_of_reset ha', State.AloneAt.applyReset ⟨h.cfg, h.inst, rfl⟩⟩
  | .move j m :: rest =>
    rw [step_of_move ha] at hs
    by_cases hj : j = k
    · subst hj
      have ha' : s'.agenda = .move j m :: rest.filter (Tick.concerns j) := by simp [h.agenda, ha]
      obtain ⟨t', hx, ht⟩ := State.AloneAt.exec_own (s := { s with agenda := rest, sel := j })
        (s' := { s' with agenda := rest.filter (Tick.concerns j), sel := j }) ⟨h.cfg, h.inst, rfl⟩ rfl hs
      exact .inr ⟨by simp [ha'], t', (step_of_move ha').trans hx, ht⟩
    · have ha' : s'.agenda = rest.filter (Tick.concerns k) := by simp [h.agenda, ha, hj]
      exact .inl (State.AloneAt.exec_other (s := { s with agenda := rest, sel := j }) ⟨h.cfg, h.inst, ha'⟩ hj hs)

/-! ### The length of an agenda -/

theorem Tick.steps_pos (tick : Tick) : 0 < tick.steps := by
  unfold Tick.steps
  split <;> omega

theorem agendaSteps_eq_zero {s : State} : s.agendaSteps = 0 ↔ s.agenda = [] := by
  cases ha : s.agenda with
  | nil => simp [State.agendaSteps, ha]
  | cons tick rest => simp [State.agendaSteps, ha, tick.steps_pos.ne']

/-- R65, R66: a command word's instruction is a group command, which defers nothing. -/
theorem deferred_decode (k : Nat) (w : Gcw) : deferred k (decode w) = [] := by
  unfold decode
  split_ifs <;> rfl

/-- R8, R70: a move's instruction is one step, and what it defers takes the others. -/
theorem steps_move (k : Nat) (m : Move) :
    (Tick.move k m).steps = ((deferred k (fetchInstr m)).map Tick.steps).sum + 1 := by
  cases m with
  | port w => simp [Tick.steps, fetchInstr, deferred_decode]
  | start | seqStep | read => rfl
  | encode bytes =>
    simp only [Tick.steps, fetchInstr, deferred]
    split_ifs with hlen
    · simp only [List.map_cons, List.map_nil, List.sum_singleton, Tick.steps, List.length_drop]
      omega
    · simp only [List.map_nil, List.sum_nil]
      omega

theorem agendaSteps_of_step {s t : State} (hne : s.agenda ≠ []) (h : step s = .next t) :
    s.agendaSteps = t.agendaSteps + 1 := by
  match ha : s.agenda with
  | [] => exact absurd ha hne
  | .reset p :: rest =>
    rw [step_of_reset ha] at h
    cases h
    simp [State.agendaSteps, ha, Tick.steps, Nat.add_comm]
  | .move k m :: rest =>
    rw [step_of_move ha] at h
    obtain ⟨c, d, r, -, -, rfl⟩ := exec_next_effect h
    simp only [State.agendaSteps, ha, State.afterEffect_agenda, List.map_cons, List.sum_cons, steps_move,
      List.map_append, List.sum_append]
    omega

/-! ### Running an agenda -/

theorem run_succ {M : Host.Core} (n : Nat) {s u : M.State} (h : M.step s = .next u) : M.run (n + 1) s = M.run n u := by
  simp only [Host.Core.run, h]

theorem run_succ_next {M : Host.Core} {n : Nat} {s t : M.State} (h : M.run (n + 1) s = .next t) :
    ∃ u, M.step s = .next u ∧ M.run n u = .next t := by
  unfold Host.Core.run at h
  split at h
  · next u hu => exact ⟨u, hu, h⟩
  · cases h
  · cases h

/-- R57, R139: along the run of a whole agenda, instance `k` alone keeps up. -/
theorem State.AloneAt.run {k n : Nat} {s s' t : State} (h : s.AloneAt k s') (hn : s.agendaSteps = n)
    (hrun : Host.Core.run Sys2Proof.core n s = .next t) :
    ∃ t', Host.Core.run Sys2Proof.core s'.agendaSteps s' = .next t' ∧ t'.insts[k]? = t.insts[k]? := by
  induction n generalizing s s' with
  | zero =>
    cases hrun
    have ha' : s'.agendaSteps = 0 := agendaSteps_eq_zero.mpr (by simp [h.agenda, agendaSteps_eq_zero.mp hn])
    exact ⟨s', by rw [ha']; rfl, h.inst⟩
  | succ n ih =>
    obtain ⟨u, hu, hrun⟩ := run_succ_next (M := Sys2Proof.core) hrun
    have hne : s.agenda ≠ [] := fun ha => by simp [agendaSteps_eq_zero.mpr ha] at hn
    have hun : u.agendaSteps = n := by
      have := agendaSteps_of_step hne hu
      omega
    obtain ha | ⟨hne', u', hu', ha⟩ := h.step hne hu
    · exact ih ha hun hrun
    · rw [agendaSteps_of_step hne' hu', run_succ (M := Sys2Proof.core) _ hu']
      exact ih ha hun hrun

/-- Settles O56: a state agrees at instance `k` with itself under `k`'s part of the agenda. -/
theorem interleavingIsInvisible : Obligations.InterleavingIsInvisible := by
  intro s t k h
  have halone : s.AloneAt k { s with agenda := s.agenda.filter (Tick.concerns k) } := ⟨rfl, rfl, rfl⟩
  exact halone.run rfl h

end Sys2Proof.Machine
end

section
/-! PROOFS of the family 30_encoding.md: the command word and its fields (R61, R65, R66, R68), the packed value and its
sextets (R63, R64), the side outputs (R62), the assembler's text (R68, R69) and the commands of an ENCODE (R70). -/
namespace Sys2Proof.Machine

/-! ### Command words (R61, R65, R66) -/

theorem decode_of_encode {i : Instr} {w : Gcw} (h : encode i = some w) : decode w = i := by
  cases i with
  | enc3 | enc2 | enc1 | enc0 =>
    cases h
    simp [decode, countField_gcw, byteField0_gcw, byteField1_gcw, byteField2_gcw]
  | start | step | read | encode => cases h

/-- R65, R69, R70: the group commands are the instructions that have a word. -/
theorem isSome_encode (i : Instr) : (encode i).isSome = i.isGroupCommand := by
  cases i <;> rfl

/-- Settles O1: the fields of a word put together from fields are those fields, so `decode` finds the command by its
count and every lane as it was. -/
theorem decodeOfEncodedInstruction : Obligations.DecodeOfEncodedInstruction :=
  ⟨fun _ _ => decode_of_encode, isSome_encode⟩

/-- R61: the four fields cover the word, so put together again they are the word. -/
theorem gcw_fields (w : Gcw) : gcw (countField w) (byteField0 w) (byteField1 w) (byteField2 w) = w := by
  have h0 : countField w ++ byteField0 w = w.extractLsb' 16 10 :=
    BitVec.extractLsb'_append_extractLsb'_eq_extractLsb' rfl
  have h1 : w.extractLsb' 16 10 ++ byteField1 w = w.extractLsb' 8 18 :=
    BitVec.extractLsb'_append_extractLsb'_eq_extractLsb' rfl
  have h2 : w.extractLsb' 8 18 ++ byteField2 w = w.extractLsb' 0 26 :=
    BitVec.extractLsb'_append_extractLsb'_eq_extractLsb' rfl
  unfold gcw
  rw [h0, h1, h2]
  exact BitVec.extractLsb'_eq_self

/-- The last branch of `decode` is the count 0. -/
theorem count_eq_zero (n : BitVec 2) : n ≠ 3 → n ≠ 2 → n ≠ 1 → n = 0 := by
  revert n
  decide

theorem encode_decode (w : Gcw) : encode (decode w) = some w := by
  have hw := gcw_fields w
  unfold decode
  split_ifs with h3 h2 h1
  · rw [encode, ← h3, hw]
  · rw [encode, ← h2, hw]
  · rw [encode, ← h1, hw]
  · rw [encode, ← count_eq_zero _ h3 h2 h1, hw]

/-- `decode` and `encode` are inverse to each other between words and group commands. -/
theorem decode_eq_iff {i : Instr} {w : Gcw} : decode w = i ↔ encode i = some w :=
  ⟨fun h => h ▸ encode_decode w, decode_of_encode⟩

/-- Settles O2: `encode_decode` gives the word back, and by `decode_of_encode` no other instruction has it. -/
theorem everyWordIsOneCommand : Obligations.EveryWordIsOneCommand := by
  refine fun w => ⟨encode_decode w, ?_, fun i h => (decode_of_encode h).symm⟩
  rw [← isSome_encode, encode_decode, Option.isSome_some]

theorem gcw_and_gcw (m n : BitVec 2) (a0 a1 a2 b0 b1 b2 : Byte) :
    gcw m a0 a1 a2 &&& gcw n b0 b1 b2 = gcw (m &&& n) (a0 &&& b0) (a1 &&& b1) (a2 &&& b2) := by
  unfold gcw
  rw [BitVec.and_append, BitVec.and_append, BitVec.and_append]

/-- The opcode table's mask keeps the count and clears the lanes. -/
theorem gcw_and_mask (n : BitVec 2) (b0 b1 b2 : Byte) : gcw n b0 b1 b2 &&& gcw 3 0 0 0 = gcw n 0 0 0 := by
  have hn : n &&& 3#2 = n := by
    revert n
    decide
  simp only [gcw_and_gcw, BitVec.ofNat_eq_ofNat, BitVec.and_zero, hn]

/-- The words of a count are those that the mask turns into its match word. -/
theorem exists_gcw_iff {n : BitVec 2} {w : Gcw} :
    (∃ b0 b1 b2, gcw n b0 b1 b2 = w) ↔ w &&& gcw 3 0 0 0 = gcw n 0 0 0 := by
  constructor
  · rintro ⟨b0, b1, b2, rfl⟩
    exact gcw_and_mask n b0 b1 b2
  · intro h
    rw [← gcw_fields w, gcw_and_mask] at h
    obtain rfl : countField w = n := by simpa only [countField_gcw] using congrArg countField h
    exact ⟨_, _, _, gcw_fields w⟩

/-- Settles O3: a word decodes to a command exactly if it is that command's word for some lanes. -/
theorem countFieldSelectsCommand : Obligations.CountFieldSelectsCommand := by
  intro w
  simp only [decode_eq_iff, encode, Option.some.injEq]
  exact ⟨exists_gcw_iff, exists_gcw_iff, exists_gcw_iff, exists_gcw_iff⟩

/-- Settles O4: each of the four is the word of its instruction. -/
theorem writtenWordsDecode : Obligations.WrittenWordsDecode :=
  ⟨decode_of_encode rfl, decode_of_encode rfl, decode_of_encode rfl, decode_of_encode rfl⟩

/-- Settles O5: putting fields together is shifting each past the ones below it. -/
theorem wordIsShiftedFields : Obligations.WordIsShiftedFields := by
  intro n b0 b1 b2
  have h := BitVec.setWidth_append_append_append_eq_shiftLeft_setWidth_or (w'''' := 26) (b := n) (b' := b0)
    (b'' := b1) (b''' := b2)
  rwa [BitVec.setWidth_eq] at h

/-! ### The packed value and its sextets (R63, R64) -/

theorem extractLsb'_packed (n : BitVec 2) (b0 b1 b2 : Byte) :
    (packed n b0 b1 b2).extractLsb' 16 8 = lane0 n b0 ∧ (packed n b0 b1 b2).extractLsb' 8 8 = lane1 n b1 ∧
      (packed n b0 b1 b2).extractLsb' 0 8 = lane2 n b2 := by
  unfold packed
  refine ⟨?_, ?_, BitVec.extractLsb'_append_eq_right⟩
  · rw [BitVec.extractLsb'_append_eq_of_le (by decide)]
    exact BitVec.extractLsb'_append_eq_left
  · rw [BitVec.extractLsb'_append_eq_of_le (by decide)]
    exact BitVec.extractLsb'_append_eq_right

theorem packed_eq_or (n : BitVec 2) (b0 b1 b2 : Byte) :
    packed n b0 b1 b2 =
      (lane0 n b0).setWidth 24 <<< 16 ||| (lane1 n b1).setWidth 24 <<< 8 ||| (lane2 n b2).setWidth 24 := by
  have h := BitVec.setWidth_append_append_eq_shiftLeft_setWidth_or (w''' := 24) (b := lane0 n b0)
    (b' := lane1 n b1) (b'' := lane2 n b2)
  rwa [BitVec.setWidth_eq] at h

/-- Settles O10: V's byte slices are the gated lanes, and at a given n the gates are open or closed. -/
theorem packedValueLanes : Obligations.PackedValueLanes := by
  intro n b0 b1 b2
  obtain ⟨h0, h1, h2⟩ := extractLsb'_packed n b0 b1 b2
  refine ⟨h0, h1, h2, ?_, ?_, ?_⟩ <;> simp [packed_eq_or, lane0, lane1, lane2]

/-- A slice over the seam of two vectors takes `l` bits above it and `r` bits below it. -/
theorem extractLsb'_append_straddle {v w start l r : Nat} (x : BitVec v) (y : BitVec w) (hs : start + r = w) :
    (x ++ y).extractLsb' start (l + r) = x.extractLsb' 0 l ++ y.extractLsb' start r := by
  rw [← BitVec.extractLsb'_append_extractLsb'_eq_extractLsb' (rfl : start + r = start + r),
    BitVec.extractLsb'_append_eq_of_add_le hs.le, BitVec.extractLsb'_append_eq_of_le hs.ge, hs, Nat.sub_self]

theorem sextets_packed (n : BitVec 2) (b0 b1 b2 : Byte) :
    sextet0 (packed n b0 b1 b2) = (lane0 n b0).extractLsb' 2 6 ∧
    sextet1 (packed n b0 b1 b2) = (lane0 n b0).extractLsb' 0 2 ++ (lane1 n b1).extractLsb' 4 4 ∧
    sextet2 (packed n b0 b1 b2) = (lane1 n b1).extractLsb' 0 4 ++ (lane2 n b2).extractLsb' 6 2 ∧
    sextet3 (packed n b0 b1 b2) = (lane2 n b2).extractLsb' 0 6 := by
  unfold packed sextet0 sextet1 sextet2 sextet3
  refine ⟨?_, ?_, ?_, BitVec.extractLsb'_append_eq_of_add_le (by decide)⟩
  · rw [BitVec.extractLsb'_append_eq_of_le (by decide), BitVec.extractLsb'_append_eq_of_le (by decide)]
  · rw [BitVec.extractLsb'_append_eq_of_le (by decide)]
    exact extractLsb'_append_straddle (l := 2) (r := 4) _ _ rfl
  · refine (extractLsb'_append_straddle (l := 4) (r := 2) _ _ rfl).trans ?_
    rw [BitVec.extractLsb'_append_eq_of_add_le (by decide)]

theorem symbol_of_lt {n : BitVec 2} {k : BitVec 3} (h : k < ndataOf n) (s : Sextet) : symbol n k s = lut s := if_pos h

/-- Settles O11: below `ndata` the symbol is LUT of the sextet; `s0` and `s3` lie in one lane each, and `s1` and `s2`
over a seam of two. -/
theorem sextetsOfLanes : Obligations.SextetsOfLanes := by
  refine ⟨fun n k s hk => ?_, fun n b0 b1 b2 => ⟨rfl, ?_⟩⟩
  · rw [symbol_of_lt hk, alphabet_getElem?]
  · obtain ⟨h0, h1, h2, h3⟩ := sextets_packed n b0 b1 b2
    simp only [pack, h0, h1, h2, h3]

/-! ### The result of a word (R62, R66) -/

theorem npadOf_eq (n : BitVec 2) : npadOf n = if n = 1 then 2 else if n = 2 then 1 else 0 := by
  revert n
  decide

theorem ndataOf_add_npadOf (n : BitVec 2) : (ndataOf n).toNat + (npadOf n).toNat = (noutOf n).toNat := by
  revert n
  decide

/-- Settles O17: the side outputs are functions of the count alone. -/
theorem sideOutputsAddUp : Obligations.SideOutputsAddUp :=
  fun w => ⟨rfl, rfl, npadOf_eq (countField w), ndataOf_add_npadOf (countField w)⟩

/-- GROUP sees the lanes of a word through its packed value alone. -/
theorem group_gcw_congr {n : BitVec 2} {a0 a1 a2 b0 b1 b2 : Byte} (h : packed n a0 a1 a2 = packed n b0 b1 b2) :
    group (gcw n a0 a1 a2) = group (gcw n b0 b1 b2) := by
  simp only [group, pack, countField_gcw, byteField0_gcw, byteField1_gcw, byteField2_gcw, h]

/-- R66: assembling the don't-care lanes as 0x00 changes no result, since the packer gates them. -/
theorem group_of_canonical {i : Instr} {w : Gcw} (h : encode i = some w) :
    ∃ u, encode i.canonical = some u ∧ group w = group u := by
  cases i with
  | enc3 | enc2 | enc1 | enc0 =>
    cases h
    exact ⟨_, rfl, group_gcw_congr rfl⟩
  | start | step | read | encode => cases h

/-- Settles O24: both words have the result of the one canonical form. -/
theorem dontCareLanesChangeNoResult : Obligations.DontCareLanesChangeNoResult := by
  intro i j hij w v hw hv
  obtain ⟨u, hu, hwu⟩ := group_of_canonical hw
  obtain ⟨u', hu', hvu⟩ := group_of_canonical hv
  obtain rfl : u = u' := Option.some.inj (by rw [← hu, ← hu', hij])
  rw [hwu, hvu]

/-! ### The phase output (R69) -/

/-- Settles O33: one code for each phase, none of them 0b11. -/
theorem phaseOutputCodes : Obligations.PhaseOutputCodes := by
  refine ⟨rfl, rfl, rfl, fun p => ?_⟩
  cases p <;> decide

/-! ### The commands of an ENCODE (R70) -/

/-- R70: the first command of `gcws` is what a first STEP would issue; the others are those of the rest. -/
theorem gcws_eq (bytes : Bytes) :
    gcws bytes = (issue (beginMessage bytes)).word :: if 3 ≤ bytes.length then gcws (bytes.drop 3) else [] := by
  obtain ⟨b0, b1, b2, t, rfl⟩ | ⟨b0, b1, rfl⟩ | ⟨b0, rfl⟩ | rfl := remaining_cases bytes
  · rw [issue_full (c := beginMessage _) rfl, gcws_full, if_pos (by simp)]
    rfl
  · simp [issue_two (c := beginMessage _) rfl, gcws]
  · simp [issue_one (c := beginMessage _) rfl, gcws]
  · simp [issue_none (c := beginMessage _) rfl, gcws]

/-- ENCODE answers its first command and leaves the rest next on the agenda (log 10). -/
theorem exec_encode {s : State} (h : s.sel < s.insts.length) (bytes : Bytes) :
    exec (.encode bytes) s = .next { s with
      agenda := deferred s.sel (.encode bytes) ++ s.agenda
      resp := .group (issue (beginMessage bytes)).word (group (issue (beginMessage bytes)).word) } := by
  obtain ⟨c, hc⟩ := exists_inst h
  rw [exec_of_effect hc rfl, State.afterEffect_same hc]

theorem deferred_encode_append (k : Nat) (bytes : Bytes) (rest : List Tick) :
    deferred k (.encode bytes) ++ rest =
      if 3 ≤ bytes.length then .move k (.encode (bytes.drop 3)) :: rest else rest := by
  simp only [deferred]
  split_ifs <;> rfl

theorem step_encode {s : State} {k : Nat} {bytes : Bytes} {rest : List Tick} (hk : k < s.insts.length)
    (ha : s.agenda = .move k (.encode bytes) :: rest) :
    step s = .next { s with
      sel := k
      agenda := if 3 ≤ bytes.length then .move k (.encode (bytes.drop 3)) :: rest else rest
      resp := .group (issue (beginMessage bytes)).word (group (issue (beginMessage bytes)).word) } := by
  rw [step_of_move ha, ← deferred_encode_append]
  exact exec_encode (s := { s with agenda := rest, sel := k }) hk bytes

/-- The steps from an ENCODE at the head of the agenda issue `gcws` word by word. -/
theorem run_encode {s : State} {k : Nat} {bytes : Bytes} {rest : List Tick} {j : Nat} {w : Gcw}
    (hk : k < s.insts.length) (ha : s.agenda = .move k (.encode bytes) :: rest) (hw : (gcws bytes)[j]? = some w) :
    Host.Core.run Sys2Proof.core (j + 1) s = .next { s with
      sel := k
      agenda := if j < bytes.length / 3 then .move k (.encode (bytes.drop (3 * (j + 1)))) :: rest else rest
      resp := .group w (group w) } := by
  induction j generalizing s bytes with
  | zero =>
    rw [gcws_eq] at hw
    obtain rfl := Option.some.inj hw
    rw [run_succ (M := Sys2Proof.core) 0 (step_encode hk ha)]
    have hlen : 0 < bytes.length / 3 ↔ 3 ≤ bytes.length := by omega
    simp only [Host.Core.run, hlen]
  | succ j ih =>
    rw [gcws_eq] at hw
    obtain hlen | hlen := Nat.lt_or_ge bytes.length 3
    · simp [Nat.not_le.mpr hlen] at hw
    · rw [List.getElem?_cons_succ, if_pos hlen] at hw
      rw [run_succ (M := Sys2Proof.core) _ (step_encode hk ha), if_pos hlen]
      have hdiv : j < (bytes.drop 3).length / 3 ↔ j + 1 < bytes.length / 3 := by
        rw [List.length_drop]
        omega
      have hdrop : (bytes.drop 3).drop (3 * (j + 1)) = bytes.drop (3 * (j + 1 + 1)) := by
        rw [List.drop_drop, show 3 + 3 * (j + 1) = 3 * (j + 1 + 1) by omega]
      rw [ih ?_ rfl hw]
      · simp only [hdiv, hdrop]
      · exact hk

theorem length_gcws (bytes : Bytes) : (gcws bytes).length = bytes.length / 3 + 1 := by
  induction bytes using gcws.induct with
  | case1 b0 b1 b2 t ih =>
    simp only [gcws_full, List.length_cons, ih]
    omega
  | case2 | case3 | case4 => simp [gcws]

/-- R70: every command but the last is an ENC3, and the last takes the N mod 3 bytes that remain. -/
theorem gcws_full_then_closing (bytes : Bytes) :
    ∃ ws last, gcws bytes = ws ++ [last] ∧ (∀ w ∈ ws, countField w = 3) ∧
      (countField last).toNat = bytes.length % 3 := by
  induction bytes using gcws.induct with
  | case1 b0 b1 b2 t ih =>
    obtain ⟨ws, last, hws, hfull, hlast⟩ := ih
    refine ⟨gcw 3 b0 b1 b2 :: ws, last, by rw [gcws_full, hws, List.cons_append], ?_, ?_⟩
    · exact List.forall_mem_cons.mpr ⟨countField_gcw 3 b0 b1 b2, hfull⟩
    · exact hlast.trans (Nat.add_mod_right t.length 3).symm
  | case2 b0 b1 => exact ⟨[], gcw 2 b0 b1 0, by simp [gcws], by simp, by simp [countField_gcw]⟩
  | case3 b0 => exact ⟨[], gcw 1 b0 0 0, by simp [gcws], by simp, by simp [countField_gcw]⟩
  | case4 => exact ⟨[], gcw 0 0 0 0, by simp [gcws], by simp, by simp [countField_gcw]⟩

/-- R70, R118: the commands together emit the encoding; the closing ENC0 emits nothing. -/
theorem emitted_gcws (bytes : Bytes) : (gcws bytes).flatMap (fun w => emitted (group w)) = encodeBytes bytes := by
  induction bytes using gcws.induct with
  | case1 b0 b1 b2 t ih => rw [gcws_full, List.flatMap_cons, ih, encodeBytes_full]
  | case2 | case3 => simp [gcws, encodeBytes]
  | case4 =>
    rw [gcws, List.flatMap_singleton, encodeBytes_nil]
    exact List.eq_nil_of_length_eq_zero (length_emitted _)

/-- Settles O26: one step by `gcws_eq`, and the run by induction on the number of steps. -/
theorem encodeCompletes : Obligations.EncodeCompletes := by
  refine ⟨fun s bytes w ws hsel hws => ?_, fun s k bytes rest j w => run_encode,
    fun bytes => ⟨length_gcws bytes, gcws_full_then_closing bytes, emitted_gcws bytes⟩⟩
  obtain ⟨rfl, rfl⟩ := List.cons.inj ((gcws_eq bytes).symm.trans hws)
  exact ⟨rfl, by rw [exec_encode hsel, deferred_encode_append]⟩

/-! ### Text (R68, R69): the tokens of a line -/

/-- The characters `cs` lex to the tokens `ts`, on any fuel that is enough. -/
def Lexes (cs : List Char) (ts : List Token) : Prop := ∀ fuel, cs.length ≤ fuel → lexFuel fuel cs = .ok ts

theorem Lexes.lex {cs : List Char} {ts : List Token} (h : Lexes cs ts) : lex cs = .ok ts := h _ le_rfl

theorem Lexes.nil : Lexes [] [] := by
  intro fuel _
  cases fuel <;> rfl

theorem Lexes.cons {c : Char} {cs : List Char} {ts : List Token}
    (h : ∀ fuel, cs.length ≤ fuel → lexFuel (fuel + 1) (c :: cs) = .ok ts) : Lexes (c :: cs) ts := by
  intro fuel hf
  cases fuel with
  | zero => simp at hf
  | succ fuel => exact h fuel (Nat.le_of_succ_le_succ hf)

theorem Lexes.space {cs : List Char} {ts : List Token} (h : Lexes cs ts) : Lexes (' ' :: cs) ts :=
  .cons fun fuel hf => by simp [lexFuel, h fuel hf]

theorem Lexes.comma {cs : List Char} {ts : List Token} (h : Lexes cs ts) : Lexes (',' :: cs) (.comma :: ts) :=
  .cons fun fuel hf => by simp [lexFuel, h fuel hf, Except.map]

theorem Lexes.lbrack {cs : List Char} {ts : List Token} (h : Lexes cs ts) : Lexes ('[' :: cs) (.lbrack :: ts) :=
  .cons fun fuel hf => by simp [lexFuel, h fuel hf, Except.map]

theorem Lexes.rbrack {cs : List Char} {ts : List Token} (h : Lexes cs ts) : Lexes (']' :: cs) (.rbrack :: ts) :=
  .cons fun fuel hf => by simp [lexFuel, h fuel hf, Except.map]

/-- No word starts at `cs`, so that a word before it ends there. -/
def EndsWord (cs : List Char) : Prop := ∀ c ∈ cs.head?, c.isAlphanum = false

@[simp] theorem endsWord_nil : EndsWord [] := by simp [EndsWord]

@[simp] theorem endsWord_cons {c : Char} {cs : List Char} : EndsWord (c :: cs) ↔ c.isAlphanum = false := by
  simp [EndsWord]

theorem EndsWord.takeWhile {cs : List Char} (h : EndsWord cs) : cs.takeWhile Char.isAlphanum = [] := by
  cases cs with
  | nil => rfl
  | cons c cs => simp [endsWord_cons.mp h]

theorem EndsWord.dropWhile {cs : List Char} (h : EndsWord cs) : cs.dropWhile Char.isAlphanum = cs := by
  cases cs with
  | nil => rfl
  | cons c cs => simp [endsWord_cons.mp h]

/-- A word character is none of the characters with a meaning of their own, so it starts a word. -/
theorem lexFuel_of_isAlphanum {c : Char} (hc : c.isAlphanum = true) (fuel : Nat) (cs : List Char) :
    lexFuel (fuel + 1) (c :: cs) =
      (lexFuel fuel (cs.dropWhile Char.isAlphanum)).map fun ts => .word (c :: cs.takeWhile Char.isAlphanum) :: ts := by
  have hne (d : Char) (hd : d.isAlphanum = false) : c ≠ d := by
    rintro rfl
    simp [hc] at hd
  simp only [lexFuel]
  rw [if_neg (hne _ rfl), if_neg (not_or.mpr ⟨hne _ rfl, hne _ rfl⟩), if_neg (hne _ rfl), if_neg (hne _ rfl),
    if_neg (hne _ rfl), if_neg (hne _ rfl), if_neg (hne _ rfl), if_pos hc]

/-- A row of characters that is one token when no further word character follows it. -/
abbrev IsWord (w : List Char) : Prop := w ≠ [] ∧ ∀ c ∈ w, c.isAlphanum = true

/-- R68: a row of word characters that ends there is one token. -/
theorem Lexes.word {w cs : List Char} {ts : List Token} (hw : IsWord w) (hcs : EndsWord cs) (h : Lexes cs ts) :
    Lexes (w ++ cs) (.word w :: ts) := by
  obtain ⟨hne, hw⟩ := hw
  obtain ⟨c, w, rfl⟩ := List.exists_cons_of_ne_nil hne
  obtain ⟨hc, hw⟩ := List.forall_mem_cons.mp hw
  refine .cons fun fuel (hf : (w ++ cs).length ≤ fuel) => ?_
  have hfuel : cs.length ≤ fuel := by
    rw [List.length_append] at hf
    omega
  change lexFuel (fuel + 1) (c :: (w ++ cs)) = _
  rw [lexFuel_of_isAlphanum hc, List.dropWhile_append_of_pos hw, List.takeWhile_append_of_pos hw, hcs.dropWhile,
    hcs.takeWhile, h fuel hfuel, List.append_nil, Except.map]

/-! ### Text: byte literals -/

theorem isAlphanum_hexDigit {v : Nat} (h : v < 16) : (hexDigit v).isAlphanum = true := by
  revert v
  decide

theorem hexValue_hexDigit {v : Nat} (h : v < 16) : hexValue (hexDigit v) = some v := by
  revert v
  decide

/-- A byte has two hex digits. -/
theorem hexDigits_lt (b : Byte) : b.toNat / 16 < 16 ∧ b.toNat % 16 < 16 := by
  have := b.isLt
  omega

/-- R68: a byte's two hex digits are its value. -/
theorem parseByte_hexByte (b : Byte) : parseByte (.word (hexByte b)) = .ok b := by
  obtain ⟨hhi, hlo⟩ := hexDigits_lt b
  have hb : b.toNat / 16 * 16 + b.toNat % 16 = b.toNat := by omega
  simp [parseByte, hexByte, hexValue_hexDigit hhi, hexValue_hexDigit hlo, hb]

/-- The tokens of the printed byte literals. -/
def byteTokens : Bytes → List Token
  | [] => []
  | [b] => [.word (hexByte b)]
  | b :: b' :: bs => .word (hexByte b) :: .comma :: byteTokens (b' :: bs)

theorem Lexes.hexByte {cs : List Char} {ts : List Token} (b : Byte) (hcs : EndsWord cs) (h : Lexes cs ts) :
    Lexes (hexByte b ++ cs) (.word (hexByte b) :: ts) := by
  obtain ⟨hhi, hlo⟩ := hexDigits_lt b
  refine .word ⟨List.cons_ne_nil _ _, ?_⟩ hcs h
  simp [Machine.hexByte, isAlphanum_hexDigit hhi, isAlphanum_hexDigit hlo]

/-- The printed byte literals lex to their tokens. -/
theorem Lexes.hexBytes {cs : List Char} {ts : List Token} (bs : Bytes) (hcs : EndsWord cs) (h : Lexes cs ts) :
    Lexes (hexBytes bs ++ cs) (byteTokens bs ++ ts) := by
  induction bs using byteTokens.induct with
  | case1 => exact h
  | case2 b => exact .hexByte b hcs h
  | case3 b b' bs ih =>
    have hends : EndsWord (',' :: ' ' :: (Machine.hexBytes (b' :: bs) ++ cs)) := by simp
    simpa [Machine.hexBytes, byteTokens] using Lexes.hexByte b hends (.comma (.space ih))

theorem byteList_byteTokens (bs : Bytes) : byteList (byteTokens bs) = .ok bs := by
  induction bs using byteTokens.induct with
  | case1 => rfl
  | case2 b => simp [byteTokens, byteList, parseByte_hexByte, Except.map]
  | case3 b b' bs ih =>
    obtain ⟨t, ts, ht⟩ : ∃ t ts, byteTokens (b' :: bs) = t :: ts := by
      cases bs <;> exact ⟨_, _, rfl⟩
    rw [ht] at ih
    simp [byteTokens, byteList, ht, parseByte_hexByte, ih]

theorem bytesOperand_byteTokens (bs : Bytes) : bytesOperand (.lbrack :: (byteTokens bs ++ [.rbrack])) = .ok bs := by
  simp [bytesOperand, byteList_byteTokens]

/-! ### Text: lines and instructions -/

section
variable {m : List Char} {args : List Token} {i : Instr}

theorem assembleLine_of_lexes {line : List Char} (hl : Lexes line (.word m :: args))
    (hp : parseInstr m args = .ok i) : assembleLine line = .ok (some i) := by
  simp [assembleLine, hl.lex, hp, Except.map]

/-- A line of the form of READ and ENC0. -/
theorem assembleLine_mnemonic (hm : IsWord m) (hp : parseInstr m [] = .ok i) : assembleLine m = .ok (some i) := by
  refine assembleLine_of_lexes ?_ hp
  simpa using Lexes.word hm endsWord_nil .nil

/-- A line of the form of ENC3, ENC2 and ENC1. -/
theorem assembleLine_operands (hm : IsWord m) (bs : Bytes) (hp : parseInstr m (byteTokens bs) = .ok i) :
    assembleLine (m ++ [' '] ++ hexBytes bs) = .ok (some i) := by
  refine assembleLine_of_lexes ?_ hp
  have hops : Lexes (hexBytes bs) (byteTokens bs) := by
    simpa using Lexes.hexBytes bs endsWord_nil .nil
  simpa using Lexes.word hm (by simp) hops.space

/-- A line of the form of START and ENCODE. -/
theorem assembleLine_bracketed (hm : IsWord m) (bs : Bytes)
    (hp : parseInstr m (.lbrack :: (byteTokens bs ++ [.rbrack])) = .ok i) :
    assembleLine (m ++ [' ', '['] ++ hexBytes bs ++ [']']) = .ok (some i) := by
  refine assembleLine_of_lexes ?_ hp
  have hlist : Lexes (hexBytes bs ++ [']']) (byteTokens bs ++ [.rbrack]) :=
    .hexBytes bs (by simp) (.rbrack .nil)
  simpa using Lexes.word hm (by simp) hlist.lbrack.space

end

theorem assembleLine_disassemble {i : Instr} {txt : List Char} (h : disassemble i = some txt) :
    assembleLine txt = .ok (some i.canonical) := by
  cases i with
  | enc3 b0 b1 b2 =>
    cases h
    exact assembleLine_operands (m := ['E', 'N', 'C', '3']) (by simp [IsWord]) [b0, b1, b2]
      (by simp [parseInstr, byteList_byteTokens, Instr.canonical])
  | enc2 b0 b1 x2 =>
    cases h
    exact assembleLine_operands (m := ['E', 'N', 'C', '2']) (by simp [IsWord]) [b0, b1]
      (by simp [parseInstr, byteList_byteTokens, Instr.canonical])
  | enc1 b0 x1 x2 =>
    cases h
    exact assembleLine_operands (m := ['E', 'N', 'C', '1']) (by simp [IsWord]) [b0]
      (by simp [parseInstr, byteList_byteTokens, Instr.canonical])
  | enc0 x0 x1 x2 =>
    cases h
    exact assembleLine_mnemonic (by simp [IsWord]) rfl
  | start bytes =>
    cases h
    exact assembleLine_bracketed (m := ['S', 'T', 'A', 'R', 'T']) (by simp [IsWord]) bytes
      (by simp [parseInstr, bytesOperand_byteTokens, Instr.canonical, Except.map])
  | step => cases h
  | read =>
    cases h
    exact assembleLine_mnemonic (by simp [IsWord]) rfl
  | encode bytes =>
    cases h
    exact assembleLine_bracketed (m := ['E', 'N', 'C', 'O', 'D', 'E']) (by simp [IsWord]) bytes
      (by simp [parseInstr, bytesOperand_byteTokens, Instr.canonical, Except.map])

/-- R68: the text names the valid lanes only. -/
theorem disassemble_canonical (i : Instr) : disassemble i.canonical = disassemble i := by
  cases i <;> rfl

theorem disassemble_eq_none_iff (i : Instr) : disassemble i = none ↔ i = .step := by
  cases i <;> simp [disassemble]

/-- Settles O6: the assembler reads each printed form back, so instructions that print alike have one canonical form;
and the text does not show the don't-care lanes. -/
theorem assembleOfDisassembled : Obligations.AssembleOfDisassembled := by
  refine ⟨fun i txt => assembleLine_disassemble, fun i j => ⟨fun h => ?_, fun h => ?_⟩, disassemble_eq_none_iff⟩
  · match hi : disassemble i with
    | none =>
      obtain rfl := (disassemble_eq_none_iff i).mp hi
      obtain rfl := (disassemble_eq_none_iff j).mp (h ▸ hi)
      rfl
    | some txt =>
      have hj : disassemble j = some txt := h ▸ hi
      simpa using (assembleLine_disassemble hi).symm.trans (assembleLine_disassemble hj)
  · rw [← disassemble_canonical i, h, disassemble_canonical]

end Sys2Proof.Machine
end

section
/-! PROOFS of the family 41_alphabet_lut.md: LUT as the table of R80, whose 64 entries are distinct (R81) and hold none
of `=`, `+` and `/` (R82, R83). What LUT does follows from what the table lists. -/
namespace Sys2Proof.Machine

/-- Settles O7: the table has 64 rows, and the ranges of the pseudocode give each of them. -/
theorem lutIsTheAlphabetTable : Obligations.LutIsTheAlphabetTable :=
  ⟨rfl, alphabet_getElem?⟩

/-- R81: the 64 bytes of the table are distinct. -/
theorem nodup_alphabet : alphabet.Nodup := by
  decide

/-- Settles O8: two sextets with one LUT result are two positions of one entry in a table without repetition. -/
theorem lutIsInjective : Obligations.LutIsInjective := by
  intro s t h
  have hentry : alphabet[s.toNat]? = alphabet[t.toNat]? := by rw [alphabet_getElem?, alphabet_getElem?, h]
  have hlt : s.toNat < alphabet.length := s.isLt
  exact BitVec.eq_of_toNat_eq ((List.getElem?_inj hlt nodup_alphabet).mp hentry)

theorem lut_mem_alphabet (s : Sextet) : lut s ∈ alphabet :=
  List.mem_of_getElem? (alphabet_getElem? s)

/-- A byte the table does not list is no LUT result. -/
theorem lut_ne_of_notMem {b : Byte} (hb : b ∉ alphabet) (s : Sextet) : lut s ≠ b :=
  ne_of_mem_of_not_mem (lut_mem_alphabet s) hb

/-- Settles O9: `=`, `+` and `/` are not in the table, and its last two entries are `-` and `_`. -/
theorem lutAvoidsPadPlusSlash : Obligations.LutAvoidsPadPlusSlash := by
  have hpad : pad ∉ alphabet := by decide
  have hplus : 0x2B ∉ alphabet := by decide
  have hslash : 0x2F ∉ alphabet := by decide
  exact ⟨fun s => ⟨lut_mem_alphabet s, lut_ne_of_notMem hpad s, lut_ne_of_notMem hplus s, lut_ne_of_notMem hslash s⟩,
    rfl, rfl⟩

end Sys2Proof.Machine
end

section
/-! PROOFS of the family 42_packer.md: what PACK answers at each count (R90), one equation for each, whose right side
names the valid lanes only. The gating (R92), the zero-filled sextets (R93), `ndata` (R94) and the corner cases (R95)
are read off them. -/
namespace Sys2Proof.Machine

/-! ### PACK at each count (R90) -/

/-- PACK answers the slices of the gated lanes (R63, R64). -/
theorem pack_eq (n : BitVec 2) (b0 b1 b2 : Byte) :
    pack n b0 b1 b2 = (((lane0 n b0).extractLsb' 2 6,
      (lane0 n b0).extractLsb' 0 2 ++ (lane1 n b1).extractLsb' 4 4,
      (lane1 n b1).extractLsb' 0 4 ++ (lane2 n b2).extractLsb' 6 2,
      (lane2 n b2).extractLsb' 0 6), ndataOf n) :=
  Prod.ext (sextetsOfLanes.2 n b0 b1 b2).2 rfl

theorem pack_three (b0 b1 b2 : Byte) :
    pack 3 b0 b1 b2 = ((b0.extractLsb' 2 6, b0.extractLsb' 0 2 ++ b1.extractLsb' 4 4,
      b1.extractLsb' 0 4 ++ b2.extractLsb' 6 2, b2.extractLsb' 0 6), 4) := by
  simp [pack_eq, lane0, lane1, lane2, ndataOf]

theorem pack_two (b0 b1 x : Byte) :
    pack 2 b0 b1 x = ((b0.extractLsb' 2 6, b0.extractLsb' 0 2 ++ b1.extractLsb' 4 4,
      b1.extractLsb' 0 4 ++ (0 : BitVec 2), 0), 3) := by
  simp [pack_eq, lane0, lane1, lane2, ndataOf]

theorem pack_one (b0 x y : Byte) :
    pack 1 b0 x y = ((b0.extractLsb' 2 6, b0.extractLsb' 0 2 ++ (0 : BitVec 4), 0, 0), 2) := by
  simp [pack_eq, lane0, lane1, lane2, ndataOf]

theorem pack_zero (x y z : Byte) : pack 0 x y z = ((0, 0, 0, 0), 0) := by
  simp [pack_eq, lane0, lane1, lane2, ndataOf]

/-- Settles O12: at each count the answer names the valid lanes only. -/
theorem packIgnoresInvalidLanes : Obligations.PackIgnoresInvalidLanes := by
  intro b0 b1 x y z
  exact ⟨by rw [pack_two, pack_two], by rw [pack_one, pack_one], by rw [pack_zero, pack_zero]⟩

/-! ### Positions without data (R93) -/

/-- From `ndata` on, the padding multiplexer takes the fill byte of the count (R100). -/
theorem symbol_of_le {n : BitVec 2} {k : BitVec 3} (h : ndataOf n ≤ k) (s : Sextet) :
    symbol n k s = if n ≠ 0 then pad else 0 :=
  if_neg (BitVec.not_lt.mpr h)

/-- Settles O13: the zeros are what the closed lanes leave in the slices, and from `ndata` on the symbol is the fill
byte whatever the sextet. -/
theorem zeroFilledSextets : Obligations.ZeroFilledSextets := by
  refine ⟨fun b0 x y => ?_, fun b0 b1 x => ?_, fun x y z => ?_, fun n k s t hk => ?_⟩
  · rw [pack_one]
  · rw [pack_two]
  · rw [pack_zero]
  · rw [symbol_of_le hk, symbol_of_le hk]

/-! ### The count of data sextets (R94) -/

theorem toNat_ndataOf (n : BitVec 2) : (ndataOf n).toNat = if n = 0 then 0 else n.toNat + 1 := by
  revert n
  decide

/-- R94: `ndata` is ⌈8·n/6⌉. -/
theorem toNat_ndataOf_eq_ceil (n : BitVec 2) : (ndataOf n).toNat = (8 * n.toNat + 5) / 6 := by
  rw [toNat_ndataOf]
  split
  case isTrue h => rw [h]; rfl
  case isFalse h =>
    have hpos : n.toNat ≠ 0 := fun h0 => h (BitVec.eq_of_toNat_eq h0)
    have hlt := n.isLt
    omega

/-- Settles O14: the table is `ndataOf` itself, and PACK answers it beside the sextets. -/
theorem dataSextetCount : Obligations.DataSextetCount :=
  ⟨rfl, rfl, rfl, rfl, fun n => ⟨toNat_ndataOf n, toNat_ndataOf_eq_ceil n, fun _ _ _ => rfl⟩⟩

/-! ### Corner cases (R95) -/

/-- Settles O15: the equation of each count at the given bytes. -/
theorem packCornerCases : Obligations.PackCornerCases :=
  ⟨pack_three 0x00 0x00 0x00, pack_three 0xFF 0xFF 0xFF, pack_one 0xFF, pack_two 0xFF 0xFF, pack_three 0x00 0x10 0x83⟩

end Sys2Proof.Machine
end

section
/-! PROOFS of the family 43_group_ops.md: what GROUP answers at each count (R100), one equation for each, from which the
four commands (R101 to R104) and the order of data and padding are read; that a command reads and changes no state
(R105); and sequences of commands on the port (R107, R157). -/
namespace Sys2Proof.Machine

/-! ### The result of a word at each count (R100) -/

theorem group_gcw (n : BitVec 2) (b0 b1 b2 : Byte) :
    group (gcw n b0 b1 b2) =
      { grw := symbol n 0 (sextet0 (packed n b0 b1 b2)) ++ symbol n 1 (sextet1 (packed n b0 b1 b2)) ++
          symbol n 2 (sextet2 (packed n b0 b1 b2)) ++ symbol n 3 (sextet3 (packed n b0 b1 b2))
        nout := noutOf n, ndata := ndataOf n, npad := npadOf n } := by
  simp only [group, pack, countField_gcw, byteField0_gcw, byteField1_gcw, byteField2_gcw]

theorem group_three (b0 b1 b2 : Byte) :
    group (gcw 3 b0 b1 b2) =
      { grw := lut (sextet0 (packed 3 b0 b1 b2)) ++ lut (sextet1 (packed 3 b0 b1 b2)) ++
          lut (sextet2 (packed 3 b0 b1 b2)) ++ lut (sextet3 (packed 3 b0 b1 b2))
        nout := 4, ndata := 4, npad := 0 } := group_gcw 3 b0 b1 b2

theorem group_two (b0 b1 x : Byte) :
    group (gcw 2 b0 b1 x) =
      { grw := lut (sextet0 (packed 2 b0 b1 x)) ++ lut (sextet1 (packed 2 b0 b1 x)) ++
          lut (sextet2 (packed 2 b0 b1 x)) ++ pad
        nout := 4, ndata := 3, npad := 1 } := group_gcw 2 b0 b1 x

theorem group_one (b0 x y : Byte) :
    group (gcw 1 b0 x y) =
      { grw := lut (sextet0 (packed 1 b0 x y)) ++ lut (sextet1 (packed 1 b0 x y)) ++ pad ++ pad
        nout := 4, ndata := 2, npad := 2 } := group_gcw 1 b0 x y

/-- R61: every word is put together from a count and three lanes. -/
theorem gcw_cases (w : Gcw) :
    ∃ b0 b1 b2, w = gcw 3 b0 b1 b2 ∨ w = gcw 2 b0 b1 b2 ∨ w = gcw 1 b0 b1 b2 ∨ w = gcw 0 b0 b1 b2 := by
  refine ⟨byteField0 w, byteField1 w, byteField2 w, ?_⟩
  have hw := (gcw_fields w).symm
  by_cases h3 : countField w = 3
  · exact .inl (h3 ▸ hw)
  by_cases h2 : countField w = 2
  · exact .inr (.inl (h2 ▸ hw))
  by_cases h1 : countField w = 1
  · exact .inr (.inr (.inl (h1 ▸ hw)))
  · exact .inr (.inr (.inr (count_eq_zero _ h3 h2 h1 ▸ hw)))

/-- Settles O16: the equation of each count, taken apart into its lanes. -/
theorem groupLanes : Obligations.GroupLanes := by
  intro n b0 b1 b2 hn
  by_cases h3 : n = 3
  · subst h3
    rw [group_three, lanes_append]
    rfl
  by_cases h2 : n = 2
  · subst h2
    rw [group_two, lanes_append]
    rfl
  by_cases h1 : n = 1
  · subst h1
    rw [group_one, lanes_append]
    rfl
  · exact absurd (count_eq_zero n h3 h2 h1) hn

/-! ### What a word emits -/

/-- A result that emits four lanes emits the four bytes of its word. -/
theorem emitted_append (c0 c1 c2 c3 : Byte) (ndata : BitVec 3) (npad : BitVec 2) :
    emitted { grw := c0 ++ c1 ++ c2 ++ c3, nout := 4, ndata := ndata, npad := npad } = [c0, c1, c2, c3] := by
  rw [emitted, lanes_append]
  rfl

theorem emitted_zero (x0 x1 x2 : Byte) : emitted (group (gcw 0 x0 x1 x2)) = [] := by
  refine List.eq_nil_of_length_eq_zero ((length_emitted _).trans ?_)
  rw [countField_gcw, if_pos rfl]

/-- Settles O18: the data are the LUT lanes in the equation of the word's count. -/
theorem dataBeforePadding : Obligations.DataBeforePadding := by
  intro w
  obtain ⟨b0, b1, b2, rfl | rfl | rfl | rfl⟩ := gcw_cases w
  · rw [group_three, emitted_append]
    exact ⟨[_, _, _, _], rfl, rfl, by simp⟩
  · rw [group_two, emitted_append]
    exact ⟨[_, _, _], rfl, rfl, by simp⟩
  · rw [group_one, emitted_append]
    exact ⟨[_, _], rfl, rfl, by simp⟩
  · rw [emitted_zero, group_gcw]
    exact ⟨[], rfl, rfl, by simp⟩

/-! ### The four commands (R101 to R105) -/

/-- A group command on an instance that exists answers GROUP of its word and changes nothing but the answer. -/
theorem exec_group {i : Instr} {w : Gcw} {s : State} (hi : encode i = some w) (hsel : s.sel < s.insts.length) :
    exec i s = .next { s with resp := .group w (group w) } :=
  (exec_of_encode hi s).trans (groupPort_eq hsel w)

/-- Settles O23: the answer is GROUP of the command's word, which no state is part of. -/
theorem groupCommandsReadNoState : Obligations.GroupCommandsReadNoState := by
  intro i s s' hi hsel hsel'
  rw [← isSome_encode] at hi
  obtain ⟨w, hw⟩ := Option.isSome_iff_exists.mp hi
  exact ⟨_, exec_group hw hsel, exec_group hw hsel'⟩

theorem lut_ne_pad (s : Sextet) : lut s ≠ pad := by
  obtain ⟨-, h, -⟩ := lutAvoidsPadPlusSlash.1 s
  exact h

theorem packed_three (b0 b1 b2 : Byte) :
    packed 3 b0 b1 b2 = b0.setWidth 24 <<< 16 ||| b1.setWidth 24 <<< 8 ||| b2.setWidth 24 := by
  obtain ⟨-, -, -, h, -⟩ := packedValueLanes 3 b0 b1 b2
  exact h

theorem packed_two (b0 b1 x : Byte) : packed 2 b0 b1 x = b0.setWidth 24 <<< 16 ||| b1.setWidth 24 <<< 8 := by
  obtain ⟨-, -, -, -, h, -⟩ := packedValueLanes 2 b0 b1 x
  exact h

theorem packed_one (b0 x y : Byte) : packed 1 b0 x y = b0.setWidth 24 <<< 16 := by
  obtain ⟨-, -, -, -, -, h⟩ := packedValueLanes 1 b0 x y
  exact h

theorem pad_notMem_lanes_three (b0 b1 b2 : Byte) : pad ∉ lanes (group (gcw 3 b0 b1 b2)).grw := by
  rw [group_three, lanes_append]
  simp [(lut_ne_pad _).symm]

/-- Settles O19: `group_three` with V in its shifted form; none of the four lanes is PAD, which LUT never answers. The
corner cases and the example are closed and evaluated. -/
theorem enc3Completes : Obligations.Enc3Completes := by
  refine ⟨fun s b0 b1 b2 hsel => ?_, fun b0 b1 b2 => ⟨gcw_and_mask 3 b0 b1 b2, fun c hc => ?_⟩, by decide⟩
  · rw [exec_group rfl hsel, group_three, packed_three]
    rfl
  · exact ne_of_mem_of_not_mem hc (pad_notMem_lanes_three b0 b1 b2)

/-- Settles O20: `group_two` with V in its shifted form; sextet 2 is four bits of b1 and two
zeros. -/
theorem enc2Completes : Obligations.Enc2Completes := by
  refine ⟨fun s b0 b1 x2 hsel => ?_, fun b0 b1 x2 => ⟨gcw_and_mask 2 b0 b1 x2, ?_⟩, by decide⟩
  · rw [exec_group rfl hsel, group_two, packed_two]
    rfl
  · have hzeros : ∀ x : BitVec 4, (x ++ (0 : BitVec 2)).toNat % 4 = 0 := by decide
    rw [pack_two]
    exact hzeros _

/-- Settles O21: `group_one` with V in its shifted form; sextet 1 is two bits of b0 and four zeros. -/
theorem enc1Completes : Obligations.Enc1Completes := by
  refine ⟨fun s b0 x1 x2 hsel => ?_, fun b0 x1 x2 => ⟨gcw_and_mask 1 b0 x1 x2, ?_⟩, by decide⟩
  · rw [exec_group rfl hsel, group_one, packed_one]
    rfl
  · have hzeros : ∀ x : BitVec 2, x ++ (0 : BitVec 4) ∈ ([0, 16, 32, 48] : List Sextet) := by decide
    rw [pack_one]
    exact hzeros _

/-- Settles O22: with every lane gated, each ENC0 word has the result of the one with zero lanes. -/
theorem enc0Completes : Obligations.Enc0Completes := by
  refine ⟨group (gcw 0 0 0 0), rfl, rfl, rfl, emitted_zero 0 0 0,
    fun s x0 x1 x2 hsel => ⟨?_, gcw_and_mask 0 x0 x1 x2⟩⟩
  have hgroup : group (gcw 0 x0 x1 x2) = group (gcw 0 0 0 0) := group_gcw_congr rfl
  rw [exec_group rfl hsel, hgroup]

/-! ### Sequences of commands on the port (R107, R157) -/

/-- What a sequence of words emits, one word after the other. -/
abbrev emittedBy (ws : List Gcw) : Bytes := ws.flatMap fun w => emitted (group w)

/-- R118: what a closing command emits is the encoding of its valid lanes. -/
theorem exists_encodeBytes_closing {w : Gcw} (h : countField w ≠ 3) :
    ∃ x : Bytes, emitted (group w) = encodeBytes x := by
  obtain ⟨b0, b1, b2, rfl | rfl | rfl | rfl⟩ := gcw_cases w
  · exact absurd (countField_gcw 3 b0 b1 b2) h
  · exact ⟨[b0, b1], congrArg emitted (group_gcw_congr rfl)⟩
  · exact ⟨[b0], congrArg emitted (group_gcw_congr rfl)⟩
  · exact ⟨[], (emitted_zero b0 b1 b2).trans encodeBytes_nil.symm⟩

/-- R107: each ENC3 puts three bytes in front of the input that the words after it encode. -/
theorem exists_encodeBytes_full_then_closing {ws : List Gcw} {last : Gcw} (hws : ∀ w ∈ ws, countField w = 3)
    (hlast : countField last ≠ 3) : ∃ x : Bytes, emittedBy (ws ++ [last]) = encodeBytes x := by
  induction ws with
  | nil => simpa [emittedBy] using exists_encodeBytes_closing hlast
  | cons w ws ih =>
    obtain ⟨hw, hws⟩ := List.forall_mem_cons.mp hws
    obtain ⟨x, hx⟩ := ih hws
    refine ⟨byteField0 w :: byteField1 w :: byteField2 w :: x, ?_⟩
    rw [encodeBytes_full, ← hx, ← hw, gcw_fields]
    rfl

/-- After a PAD byte there are only PAD bytes. -/
def PadsLast (bs : Bytes) : Prop := bs.Pairwise fun a b => a = pad → b = pad

/-- A data symbol behind a PAD byte, both anywhere in their parts, breaks the order. -/
theorem not_padsLast_append {as bs : Bytes} {b : Byte} (ha : pad ∈ as) (hb : b ∈ bs) (hne : b ≠ pad) :
    ¬ PadsLast (as ++ bs) := by
  intro h
  obtain ⟨-, -, hcross⟩ := List.pairwise_append.mp h
  exact hne (hcross pad ha b hb rfl)

theorem padsLast_append_of_notMem {as bs : Bytes} (ha : pad ∉ as) (hb : PadsLast bs) : PadsLast (as ++ bs) := by
  have hne : ∀ a ∈ as, a ≠ pad := fun a hm h => ha (h ▸ hm)
  exact List.pairwise_append.mpr
    ⟨List.pairwise_of_forall_mem_list fun a hm _ _ h => absurd h (hne a hm), hb,
      fun a hm _ _ h => absurd h (hne a hm)⟩

/-- R100: in what one word emits, the padding comes last. -/
theorem padsLast_emitted (w : Gcw) : PadsLast (emitted (group w)) := by
  obtain ⟨data, he, -, hdata⟩ := dataBeforePadding w
  rw [he]
  refine padsLast_append_of_notMem (fun hm => ?_) (List.pairwise_replicate.mpr (.inr fun h => h))
  obtain ⟨s, hs⟩ := hdata pad hm
  exact lut_ne_pad s hs.symm

/-- R122: an encoding's padding comes last, since only its last group has any. -/
theorem padsLast_encodeBytes (x : Bytes) : PadsLast (encodeBytes x) := by
  induction x using encodeBytes.induct with
  | case1 b0 b1 b2 t ih =>
    rw [encodeBytes_full]
    exact padsLast_append_of_notMem (fun h => pad_notMem_lanes_three b0 b1 b2 (List.mem_of_mem_take h)) ih
  | case2 b0 b1 => exact padsLast_emitted (gcw 2 b0 b1 0)
  | case3 b0 => exact padsLast_emitted (gcw 1 b0 0 0)
  | case4 => exact List.Pairwise.nil

theorem pad_mem_emitted {w : Gcw} (h : countField w = 1 ∨ countField w = 2) : pad ∈ emitted (group w) := by
  obtain ⟨data, he, -⟩ := dataBeforePadding w
  have hnpad : (npadOf (countField w)).toNat ≠ 0 := by
    obtain h | h := h <;> rw [h] <;> decide
  rw [he]
  exact List.mem_append_right _ (List.mem_replicate.mpr ⟨hnpad, rfl⟩)

theorem exists_lut_mem_emitted {w : Gcw} (h : countField w ≠ 0) : ∃ s, lut s ∈ emitted (group w) := by
  obtain ⟨data, he, hlen, hdata⟩ := dataBeforePadding w
  have hndata : (group w).ndata.toNat = (countField w).toNat + 1 := (toNat_ndataOf _).trans (if_neg h)
  obtain ⟨b, hb⟩ := List.exists_mem_of_length_pos (l := data) (by omega)
  obtain ⟨s, rfl⟩ := hdata b hb
  rw [he]
  exact ⟨s, List.mem_append_left _ hb⟩

/-- Settles O25: an interior padded group leaves a PAD byte before a data symbol, and an encoding has none. -/
theorem partialGroupsComeLast : Obligations.PartialGroupsComeLast := by
  refine ⟨fun ws last => exists_encodeBytes_full_then_closing, fun ws after w w' x hw hw' hne heq => ?_⟩
  have hpad : pad ∈ emittedBy (ws ++ [w]) := List.mem_flatMap.mpr ⟨w, by simp, pad_mem_emitted hw⟩
  obtain ⟨s, hs⟩ := exists_lut_mem_emitted hne
  have hdata : lut s ∈ emittedBy after := List.mem_flatMap.mpr ⟨w', hw', hs⟩
  have hsplit : emittedBy (ws ++ [w]) ++ emittedBy after = encodeBytes x := by
    rw [← heq, List.append_cons ws w after, List.flatMap_append]
  exact not_padsLast_append hpad hdata (lut_ne_pad s) (hsplit ▸ padsLast_encodeBytes x)

/-! ### A step of the machine -/

/-- Settles O42: a move at the head of the agenda runs its instruction, which for a driven word is its decoding. -/
theorem stepRunsDecodedInstruction : Obligations.StepRunsDecodedInstruction :=
  fun _ _ _ => ⟨fun _ => step_of_move, fun _ => step_of_move, step_of_move, step_of_move, fun _ => step_of_move⟩

end Sys2Proof.Machine
end

section
/-! PROOFS of the family 44_message.md: the reference function `encode` group by group (R118, R120 to R126), the
transactions START, STEP and READ (R111 to R117), and the whole message they make (R115, R119). -/
namespace Sys2Proof.Machine

/-! ### The encode function, group by group (R118) -/

@[simp] theorem encodeBytes_two (b0 b1 : Byte) : encodeBytes [b0, b1] = emitted (group (gcw 2 b0 b1 0)) := by
  simp [encodeBytes]

@[simp] theorem encodeBytes_one (b0 : Byte) : encodeBytes [b0] = emitted (group (gcw 1 b0 0 0)) := by
  simp [encodeBytes]

/-- R126: the encoding splits behind whole groups. -/
theorem encodeBytes_append {a : Bytes} (h : a.length % 3 = 0) (b : Bytes) :
    encodeBytes (a ++ b) = encodeBytes a ++ encodeBytes b := by
  induction a using encodeBytes.induct with
  | case1 b0 b1 b2 t ih =>
    have ht : t.length % 3 = 0 := (Nat.add_mod_right t.length 3).symm.trans h
    simp only [List.cons_append, encodeBytes_full, ih ht, List.append_assoc]
  | case2 | case3 => simp at h
  | case4 => simp

/-- R119: what is consumed up to a group boundary is encoded apart from what remains. -/
theorem encodeBytes_take_append_drop {x : Bytes} {p : Nat} (hmod : p % 3 = 0) (hle : p ≤ x.length) :
    encodeBytes x = encodeBytes (x.take p) ++ encodeBytes (x.drop p) := by
  rw [← encodeBytes_append (by rwa [List.length_take_of_le hle]), List.take_append_drop]

/-! ### OUT is the encoding of what is consumed (R119) -/

theorem SeqState.outputRight_of_busy {c : SeqState} (h : c.phase = .busy) :
    c.OutputRight ↔ c.pos % 3 = 0 ∧ c.pos ≤ c.inp.length ∧ c.out = encodeBytes (c.inp.take c.pos) := by
  simp [SeqState.OutputRight, h]

theorem SeqState.outputRight_of_done {c : SeqState} (h : c.phase = .done) :
    c.OutputRight ↔ c.out = encodeBytes c.inp := by simp [SeqState.OutputRight, h]

theorem beginMessage_outputRight (bytes : Bytes) : (beginMessage bytes).OutputRight :=
  (SeqState.outputRight_of_busy rfl).mpr (by simp)

/-- R114, R119: an ENC3 appends the encoding of the next group; the closing command appends that of all that remains,
which for an ENC0 is nothing. -/
theorem advance_outputRight {c : SeqState} (hb : c.phase = .busy) (h : c.OutputRight) : (advance c).OutputRight := by
  obtain ⟨hmod, hle, hout⟩ := (SeqState.outputRight_of_busy hb).mp h
  have hsplit : encodeBytes c.inp = c.out ++ encodeBytes (c.inp.drop c.pos) :=
    hout ▸ encodeBytes_take_append_drop hmod hle
  have hrest : (c.inp.drop c.pos).length = c.inp.length - c.pos := List.length_drop
  obtain ⟨b0, b1, b2, t, hd⟩ | ⟨b0, b1, hd⟩ | ⟨b0, hd⟩ | hd := remaining_cases (c.inp.drop c.pos)
  · have hi := issue_full hd
    have htake : c.inp.take (c.pos + 3) = c.inp.take c.pos ++ [b0, b1, b2] := by
      rw [List.take_add, hd]
      rfl
    rw [hd, List.length_cons, List.length_cons, List.length_cons] at hrest
    rw [SeqState.outputRight_of_busy (by simp [hi])]
    simp only [advance_pos, advance_inp, advance_out, hi]
    refine ⟨by omega, by omega, ?_⟩
    rw [htake, encodeBytes_append (by rwa [List.length_take_of_le hle]), ← hout]
    simp
  · have hi := issue_two hd
    rw [SeqState.outputRight_of_done (by simp [hi]), advance_inp, advance_out, hsplit, hi, hd, encodeBytes_two]
  · have hi := issue_one hd
    rw [SeqState.outputRight_of_done (by simp [hi]), advance_inp, advance_out, hsplit, hi, hd, encodeBytes_one]
  · have hi := issue_none hd
    rw [SeqState.outputRight_of_done (by simp [hi]), advance_inp, advance_out, hsplit, hi, hd, encodeBytes_nil,
      emitted_zero]

/-- A write of the selected instance keeps every OUT right if the one written is. -/
theorem State.OutputsRight.setInst {s : State} (hs : s.OutputsRight) {d : SeqState} (hd : d.OutputRight) :
    (s.setInst d).OutputsRight := by
  intro c hm
  obtain hm | rfl := List.mem_or_eq_of_mem_set hm
  · exact hs c hm
  · exact hd

theorem exec_keeps_outputsRight {i : Instr} {s t : State} (hs : s.OutputsRight) (h : exec i s = .next t) :
    t.OutputsRight := by
  obtain ⟨r, rfl, -, -⟩ | ⟨bytes, c, -, -, -, -, rfl⟩ | ⟨-, c, hc, hb, rfl⟩ | ⟨bytes, r, -, rfl⟩ := exec_next h
  · exact hs
  · exact hs.setInst (beginMessage_outputRight bytes)
  · exact hs.setInst (advance_outputRight hb (hs c (List.mem_of_getElem? hc)))
  · simpa [State.OutputsRight] using hs

/-- Settles O52: a reset empties every OUT, and of the instructions only a START and a STEP write one. -/
theorem stepKeepsOutputsRight : Obligations.StepKeepsOutputsRight := by
  intro s t hs h
  obtain ⟨p, rest, -, rfl⟩ | ⟨k, m, rest, -, hx⟩ | ⟨k, -, -, hx⟩ | ⟨-, -, rfl⟩ := step_next h
  · intro c hm
    obtain ⟨-, -, rfl⟩ := List.mem_map.mp hm
    exact SeqState.reset_outputRight
  · exact exec_keeps_outputsRight (s := { s with agenda := rest, sel := k }) hs hx
  · exact exec_keeps_outputsRight (s := { s with sel := k }) hs hx
  · exact hs

/-! ### Length, alphabet and padding (R120 to R126) -/

/-- R120: each group, whole or not, gives four bytes. -/
theorem length_encodeBytes (x : Bytes) : (encodeBytes x).length = (x.length + 2) / 3 * 4 := by
  induction x using encodeBytes.induct with
  | case1 b0 b1 b2 t ih =>
    simp only [encodeBytes_full, List.length_append, List.length_cons, length_emitted, countField_gcw, ih]
    rw [if_neg (by decide)]
    omega
  | case2 | case3 => simp [length_emitted, countField_gcw]
  | case4 => simp

/-- Settles O36: the rounded-up quotient is zero for the empty input alone. -/
theorem encodeLength : Obligations.EncodeLength := by
  intro x
  rw [length_encodeBytes]
  refine ⟨rfl, Nat.mul_mod_left _ _, ?_⟩
  rw [← List.length_eq_zero_iff]
  omega

/-- R121, R122: an encoding is a row of LUT results and then the padding of its last group. -/
theorem encodeBytes_eq_data_append_pads (x : Bytes) :
    ∃ data : Bytes, (∀ b ∈ data, ∃ s : Sextet, b = lut s) ∧ encodeBytes x = data ++
      List.replicate (if x.length % 3 = 1 then 2 else if x.length % 3 = 2 then 1 else 0) pad := by
  induction x using encodeBytes.induct with
  | case1 b0 b1 b2 t ih =>
    obtain ⟨first, hfirst, -, hlut⟩ := dataBeforePadding (gcw 3 b0 b1 b2)
    obtain ⟨data, hdata, ht⟩ := ih
    have hall : emitted (group (gcw 3 b0 b1 b2)) = first := by
      rw [hfirst, group_three]
      exact List.append_nil first
    refine ⟨first ++ data, List.forall_mem_append.mpr ⟨hlut, hdata⟩, ?_⟩
    rw [encodeBytes_full, hall, ht, List.append_assoc]
    simp only [List.length_cons, Nat.add_assoc, Nat.reduceAdd, Nat.add_mod_right]
  | case2 b0 b1 =>
    obtain ⟨data, hdata, -, hlut⟩ := dataBeforePadding (gcw 2 b0 b1 0)
    exact ⟨data, hlut, by rw [encodeBytes_two, hdata, group_two]; rfl⟩
  | case3 b0 =>
    obtain ⟨data, hdata, -, hlut⟩ := dataBeforePadding (gcw 1 b0 0 0)
    exact ⟨data, hlut, by rw [encodeBytes_one, hdata, group_one]; rfl⟩
  | case4 => exact ⟨[], by simp, by simp⟩

/-- Settles O37: a byte stands among the data or in the padding. -/
theorem encodeStaysInAlphabet : Obligations.EncodeStaysInAlphabet := by
  intro x b hb
  obtain ⟨data, hdata, hx⟩ := encodeBytes_eq_data_append_pads x
  rw [hx] at hb
  exact (List.mem_append.mp hb).imp (hdata b) List.eq_of_mem_replicate

/-- Settles O38: LUT never answers PAD, so the data hold none. -/
theorem encodePadsOnlyAtTheEnd : Obligations.EncodePadsOnlyAtTheEnd := by
  intro x
  obtain ⟨data, hdata, hx⟩ := encodeBytes_eq_data_append_pads x
  refine ⟨data, fun hm => ?_, hx⟩
  obtain ⟨s, hs⟩ := hdata pad hm
  exact lut_ne_pad s hs.symm

/-- Settles O39: with no bytes left over, the suffix of padding is empty. -/
theorem wholeGroupsUnpadded : Obligations.WholeGroupsUnpadded := by
  intro x h
  obtain ⟨data, hdata, hx⟩ := encodePadsOnlyAtTheEnd x
  rw [hx, h]
  simpa using hdata

/-- R126: the first k groups of the output are the encoding of the first k groups of the input. -/
theorem take_encodeBytes {x : Bytes} {k : Nat} (h : 3 * k ≤ x.length) :
    (encodeBytes x).take (4 * k) = encodeBytes (x.take (3 * k)) := by
  have hlen : (encodeBytes (x.take (3 * k))).length = 4 * k := by
    rw [length_encodeBytes, List.length_take_of_le h]
    omega
  rw [encodeBytes_take_append_drop (Nat.mul_mod_right 3 k) h, List.take_left' hlen]

/-- Settles O40: the split, and the first groups of the output by the first groups of the input. -/
theorem encodeSplitsAtGroups : Obligations.EncodeSplitsAtGroups :=
  ⟨fun _ b ha => encodeBytes_append ha b,
    fun x y k hx hy hxy => by rw [take_encodeBytes hx, take_encodeBytes hy, hxy]⟩

/-! ### START and READ (R111 to R113, R116) -/

/-- R112: an input is within the limit exactly if it is not longer than a limit that is set. -/
theorem Config.accepts_iff (cfg : Config) (n : Nat) : cfg.accepts n = true ↔ ∀ m, cfg.maxInputLen = some m → n ≤ m := by
  unfold Config.accepts
  split <;> simp [*]

/-- An effect that the selected instance's record refuses is refused. -/
theorem exec_of_effect_error {i : Instr} {s : State} {c : SeqState} {r : Refusal} (hc : s.insts[s.sel]? = some c)
    (he : effect s.cfg c i = .error r) : exec i s = .refused r := by
  rw [exec_eq_conclude hc, he]
  rfl

theorem exec_start {s : State} {c : SeqState} {bytes : Bytes} (hc : s.insts[s.sel]? = some c) (hb : c.phase ≠ .busy)
    (ha : s.cfg.accepts bytes.length = true) :
    exec (.start bytes) s = .next { s with insts := s.insts.set s.sel (beginMessage bytes), resp := .nothing } :=
  exec_of_effect hc (by simp only [effect, hb, ha, if_true, if_false])

theorem exec_read {s : State} {c : SeqState} (hc : s.insts[s.sel]? = some c) (hd : c.phase = .done) :
    exec .read s = .next { s with resp := .output c.out } := by
  have he : effect s.cfg c .read = .ok (c, .output c.out) := by simp only [effect, hd, if_true]
  rw [exec_of_effect hc he, State.afterEffect_same hc]
  rfl

/-- Settles O27: IDLE and DONE are not BUSY, and no limit or a limit kept is an input accepted. -/
theorem startBeginsMessage : Obligations.StartBeginsMessage := by
  refine ⟨fun s c bytes hc hp hm => exec_start hc ?_ ((Config.accepts_iff _ _).mpr fun m hlim => ?_), by decide⟩
  · obtain hp | hp := hp <;> simp [hp]
  · obtain hnone | ⟨m', hm', hle⟩ := hm
    · simp [hnone] at hlim
    · obtain rfl : m' = m := Option.some.inj (hm'.symm.trans hlim)
      exact hle

/-- Settles O28: outside BUSY, an input over the limit is the one START refuses. -/
theorem startOverLimitRefused : Obligations.StartOverLimitRefused := by
  intro s c bytes m hc hb hm hlt
  have ha : ¬ s.cfg.accepts bytes.length = true := fun ha =>
    absurd ((Config.accepts_iff _ _).mp ha m hm) (Nat.not_le.mpr hlt)
  exact exec_of_effect_error hc ((if_neg hb).trans (if_neg ha))

/-- Settles O29: each transaction's effect outside its phase is its refusal. -/
theorem noMoveOutsidePhase : Obligations.NoMoveOutsidePhase := by
  intro s c hc
  refine ⟨fun hb bytes => ?_, fun hd => ?_, fun hb => ?_⟩
  · exact exec_of_effect_error hc (by simp only [effect, hb, if_true])
  · exact exec_of_effect_error hc (by simp only [effect, hd, if_false])
  · exact exec_of_effect_error hc (by simp only [effect, hb, if_false])

/-- Settles O32: a READ changes the answer alone, so the instance it reads again is the same. -/
theorem readReturnsOutput : Obligations.ReadReturnsOutput := by
  refine ⟨fun s c hc => ⟨⟨fun ⟨t, ht⟩ => ?_, fun hd => ⟨_, exec_read hc hd⟩⟩, exec_read hc, fun t ht => ?_⟩, by decide⟩
  · obtain ⟨c', hc', hd, -⟩ := execRead_next ht
    obtain rfl : c' = c := Option.some.inj (hc'.symm.trans hc)
    exact hd
  · obtain ⟨c', hc', hd, rfl⟩ := execRead_next ht
    exact exec_read hc' hd

/-! ### STEP (R114) -/

theorem exec_step {s : State} {c : SeqState} (hc : s.insts[s.sel]? = some c) (hb : c.phase = .busy) :
    exec .step s = .next { s with
      insts := s.insts.set s.sel (advance c), resp := .group (issue c).word (group (issue c).word) } :=
  exec_of_effect hc (by simp only [effect, hb, if_true])

theorem exec_step_eq_afterStep {s : State} {c : SeqState} (hc : s.insts[s.sel]? = some c) (hb : c.phase = .busy) :
    exec .step s = .next (s.afterStep c (issue c).word (issue c).pos (issue c).phase) := by
  rw [exec_step hc hb, State.afterStep, ← advance_out]
  rfl

/-- Settles O31: what remains of the input is written out byte by byte, which picks the case of `issue`. -/
theorem stepEncodesNextGroup : Obligations.StepEncodesNextGroup := by
  intro s c hc
  refine ⟨⟨fun ⟨t, ht⟩ => ?_, fun hb => ⟨_, exec_step hc hb⟩⟩,
    fun hb => ⟨fun h => ?_, fun h => ?_, fun h => ?_, fun h => ?_⟩⟩
  · obtain ⟨c', hc', hb, -⟩ := execStep_next ht
    obtain rfl : c' = c := Option.some.inj (hc'.symm.trans hc)
    exact hb
  · have h0 : c.pos < c.inp.length := by omega
    have h1 : c.pos + 1 < c.inp.length := by omega
    have h2 : c.pos + 2 < c.inp.length := by omega
    have hd : c.inp.drop c.pos = c.inp[c.pos] :: c.inp[c.pos + 1] :: c.inp[c.pos + 2] :: c.inp.drop (c.pos + 3) := by
      rw [List.drop_eq_getElem_cons h0, List.drop_eq_getElem_cons h1, List.drop_eq_getElem_cons h2]
    refine ⟨_, _, _, List.getElem?_eq_getElem h0, List.getElem?_eq_getElem h1, List.getElem?_eq_getElem h2, ?_⟩
    rw [exec_step_eq_afterStep hc hb, issue_full hd]
  · have h0 : c.pos < c.inp.length := by omega
    have h1 : c.pos + 1 < c.inp.length := by omega
    have hd : c.inp.drop c.pos = [c.inp[c.pos], c.inp[c.pos + 1]] := by
      rw [List.drop_eq_getElem_cons h0, List.drop_eq_getElem_cons h1, List.drop_of_length_le (by omega)]
    refine ⟨_, _, List.getElem?_eq_getElem h0, List.getElem?_eq_getElem h1, ?_⟩
    rw [exec_step_eq_afterStep hc hb, issue_two hd]
  · have h0 : c.pos < c.inp.length := by omega
    have hd : c.inp.drop c.pos = [c.inp[c.pos]] := by
      rw [List.drop_eq_getElem_cons h0, List.drop_of_length_le (by omega)]
    refine ⟨_, List.getElem?_eq_getElem h0, ?_⟩
    rw [exec_step_eq_afterStep hc hb, issue_one hd]
  · rw [exec_step_eq_afterStep hc hb, issue_none (List.drop_of_length_le h.ge)]

/-! ### DONE (R117) -/

/-- R114, R116: in DONE there is no STEP, and of the other transactions START alone writes the record. -/
theorem effect_of_done {cfg : Config} {c d : SeqState} {i : Instr} {r : Response} (hd : c.phase = .done)
    (hi : ∀ bytes, i ≠ .start bytes) (h : effect cfg c i = .ok (d, r)) : d = c := by
  cases i with
  | enc3 | enc2 | enc1 | enc0 | encode =>
    cases h
    rfl
  | start bytes => exact absurd rfl (hi bytes)
  | step => simp [effect, hd] at h
  | read =>
    simp only [effect, hd, if_true, Except.ok.injEq, Prod.mk.injEq] at h
    obtain ⟨hd, -⟩ := h
    exact hd.symm

/-- An instruction leaves an instance in DONE as it is, unless it is a START on that instance. -/
theorem exec_of_done {i : Instr} {s t : State} {k : Nat} {c : SeqState} (h : exec i s = .next t)
    (hc : s.insts[k]? = some c) (hd : c.phase = .done) (hi : s.sel = k → ∀ bytes, i ≠ .start bytes) :
    t.insts[k]? = some c := by
  by_cases hk : k = s.sel
  · subst hk
    obtain ⟨c', d, r, hc', he, rfl⟩ := exec_next_effect h
    obtain rfl : c = c' := Option.some.inj (hc.symm.trans hc')
    rw [effect_of_done hd (hi rfl) he]
    exact List.getElem?_set_self (exec_next_sel_lt h)
  · obtain ⟨hframe, -⟩ := otherInstancesUntouched i s t h
    exact (hframe k hk).trans hc

/-- A move of instance `k` that does not restart it runs no START; a driven word decodes to none. -/
theorem fetchInstr_ne_start {k : Nat} {m : Move} (h : (Tick.move k m).restarts k = false) (bytes : Bytes) :
    fetchInstr m ≠ .start bytes := by
  cases m with
  | port w =>
    obtain ⟨-, hgroup, -⟩ := everyWordIsOneCommand w
    intro hw
    rw [show decode w = .start bytes from hw] at hgroup
    cases hgroup
  | start => simp [Tick.restarts] at h
  | seqStep | read | encode => simp [fetchInstr]

/-- Settles O57: a reset and a START on the instance are excluded, and the sequencer of a DONE instance takes no
STEP. -/
theorem donePersists : Obligations.DonePersists := by
  intro s t k c h hc hd hr
  obtain ⟨p, rest, ha, -⟩ | ⟨j, m, rest, ha, hx⟩ | ⟨j, -, -, hx⟩ | ⟨-, -, rfl⟩ := step_next h
  · simp [State.restartsNext, ha, Tick.restarts] at hr
  · refine exec_of_done hx hc hd fun hj => ?_
    obtain rfl : j = k := hj
    exact fetchInstr_ne_start (by simpa only [State.restartsNext, ha] using hr)
  · exact exec_of_done hx hc hd fun _ => by simp
  · exact hc

/-! ### The STEPs of a message (R115) -/

/-- With at least three bytes left a STEP issues an ENC3 (R114). -/
theorem issue_of_three_le {c : SeqState} (h : c.pos + 3 ≤ c.inp.length) :
    (issue c).phase = .busy ∧ (issue c).pos = c.pos + 3 ∧ countField (issue c).word = 3 := by
  have hrest : (c.inp.drop c.pos).length = c.inp.length - c.pos := List.length_drop
  obtain ⟨b0, b1, b2, t, hd⟩ | ⟨b0, b1, hd⟩ | ⟨b0, hd⟩ | hd := remaining_cases (c.inp.drop c.pos)
  · simp [issue_full hd, countField_gcw]
  all_goals
    rw [hd] at hrest
    simp only [List.length_cons, List.length_nil] at hrest
    omega

/-- With fewer than three bytes left a STEP issues the closing command of those bytes (R114, R115). -/
theorem issue_of_lt_three {c : SeqState} (hle : c.pos ≤ c.inp.length) (h : c.inp.length < c.pos + 3) :
    (issue c).phase = .done ∧ (issue c).pos = c.inp.length ∧
      (countField (issue c).word).toNat = c.inp.length - c.pos := by
  have hrest : (c.inp.drop c.pos).length = c.inp.length - c.pos := List.length_drop
  rw [← hrest]
  obtain ⟨b0, b1, b2, t, hd⟩ | ⟨b0, b1, hd⟩ | ⟨b0, hd⟩ | hd := remaining_cases (c.inp.drop c.pos)
  · rw [hd] at hrest
    simp only [List.length_cons] at hrest
    omega
  · simp [issue_two hd, countField_gcw, hd]
  · simp [issue_one hd, countField_gcw, hd]
  · rw [hd, List.length_nil] at hrest
    have hpos : c.pos = c.inp.length := by omega
    simp [issue_none hd, countField_gcw, hpos]

/-- The record of a message over `bytes` after `j` STEPs, all of them ENC3s. -/
def messageAfter (bytes : Bytes) (j : Nat) : SeqState :=
  { phase := .busy, inp := bytes, pos := 3 * j, out := encodeBytes (bytes.take (3 * j)) }

/-- The record of a whole message over `bytes`. -/
def messageDone (bytes : Bytes) : SeqState :=
  { phase := .done, inp := bytes, pos := bytes.length, out := encodeBytes bytes }

/-- A STEP keeps IN; the record after it is known from what it issues and from its OUT. -/
theorem advance_eq_mk {c : SeqState} {phase : Phase} {pos : Nat} {out : Bytes} (hphase : (issue c).phase = phase)
    (hpos : (issue c).pos = pos) (hout : (advance c).out = out) :
    advance c = { phase := phase, inp := c.inp, pos := pos, out := out } := by
  subst hphase hpos hout
  rfl

theorem messageAfter_outputRight {bytes : Bytes} {j : Nat} (h : 3 * j ≤ bytes.length) :
    (messageAfter bytes j).OutputRight :=
  (SeqState.outputRight_of_busy rfl).mpr ⟨Nat.mul_mod_right 3 j, h, rfl⟩

/-- R119: STEP keeps OUT right, so `pos` alone says what OUT holds next. -/
theorem advance_messageAfter {bytes : Bytes} {j : Nat} (h : j < bytes.length / 3) :
    advance (messageAfter bytes j) = messageAfter bytes (j + 1) := by
  obtain ⟨hphase, hpos, -⟩ := issue_of_three_le (c := messageAfter bytes j) (show 3 * j + 3 ≤ bytes.length by omega)
  obtain ⟨-, -, hout⟩ := (SeqState.outputRight_of_busy hphase).mp
    (advance_outputRight rfl (messageAfter_outputRight (by omega)))
  rw [advance_pos, hpos] at hout
  exact advance_eq_mk hphase hpos hout

theorem advance_messageAfter_last (bytes : Bytes) :
    advance (messageAfter bytes (bytes.length / 3)) = messageDone bytes := by
  obtain ⟨hphase, hpos, -⟩ := issue_of_lt_three (c := messageAfter bytes (bytes.length / 3))
    (show 3 * (bytes.length / 3) ≤ bytes.length by omega) (show bytes.length < 3 * (bytes.length / 3) + 3 by omega)
  have hout := (SeqState.outputRight_of_done hphase).mp (advance_outputRight rfl (messageAfter_outputRight (by omega)))
  exact advance_eq_mk hphase hpos hout

theorem iterate_advance_of_le {bytes : Bytes} {j : Nat} (h : j ≤ bytes.length / 3) :
    advance^[j] (beginMessage bytes) = messageAfter bytes j := by
  induction j with
  | zero => simp [beginMessage, messageAfter]
  | succ j ih => rw [Function.iterate_succ_apply', ih (by omega), advance_messageAfter (by omega)]

theorem iterate_advance_last (bytes : Bytes) :
    advance^[bytes.length / 3 + 1] (beginMessage bytes) = messageDone bytes := by
  rw [Function.iterate_succ_apply', iterate_advance_of_le le_rfl, advance_messageAfter_last]

/-- R45: a STEP's word depends on the bytes from `pos` on alone. -/
theorem issue_word_eq (c : SeqState) : (issue c).word = (issue (beginMessage (c.inp.drop c.pos))).word := by
  obtain ⟨b0, b1, b2, t, hd⟩ | ⟨b0, b1, hd⟩ | ⟨b0, hd⟩ | hd := remaining_cases (c.inp.drop c.pos) <;> rw [hd]
  · rw [issue_full hd, issue_full (c := beginMessage _) rfl]
  · rw [issue_two hd, issue_two (c := beginMessage _) rfl]
  · rw [issue_one hd, issue_one (c := beginMessage _) rfl]
  · rw [issue_none hd, issue_none (c := beginMessage _) rfl]

/-- R70: the commands of `gcws`, each as the first one of the bytes that remain. -/
theorem gcws_eq_map (bytes : Bytes) :
    gcws bytes =
      (List.range (bytes.length / 3 + 1)).map fun j => (issue (beginMessage (bytes.drop (3 * j)))).word := by
  induction bytes using gcws.induct with
  | case1 b0 b1 b2 t ih =>
    have hlen : (b0 :: b1 :: b2 :: t).length / 3 = t.length / 3 + 1 := Nat.add_div_right t.length (Nat.succ_pos 2)
    rw [gcws_full, ih, hlen, List.range_succ_eq_map (n := t.length / 3 + 1), List.map_cons, List.map_map]
    rfl
  | case2 | case3 | case4 =>
    rw [gcws_eq]
    simp

/-- Settles O41: up to floor(N/3) there are three bytes for an ENC3, and then fewer than three for the closing
command. -/
theorem messageIssuesGcws : Obligations.MessageIssuesGcws := by
  intro bytes
  refine ⟨fun j => iterate_advance_of_le, iterate_advance_last bytes, ?_, fun j hj => ?_, ?_⟩
  · rw [gcws_eq_map]
    refine List.map_congr_left fun j hj => ?_
    rw [iterate_advance_of_le (Nat.le_of_lt_succ (List.mem_range.mp hj)), issue_word_eq]
    rfl
  · rw [iterate_advance_of_le hj.le]
    obtain ⟨-, -, hword⟩ := issue_of_three_le (c := messageAfter bytes j) (show 3 * j + 3 ≤ bytes.length by omega)
    exact hword
  · rw [iterate_advance_of_le le_rfl]
    obtain ⟨-, -, hword⟩ := issue_of_lt_three (c := messageAfter bytes (bytes.length / 3))
      (show 3 * (bytes.length / 3) ≤ bytes.length by omega) (show bytes.length < 3 * (bytes.length / 3) + 3 by omega)
    rw [hword]
    show bytes.length - 3 * (bytes.length / 3) = bytes.length % 3
    omega

/-! ### A message run by the machine (R115, R123, R124) -/

theorem step_start {s : State} {k : Nat} {c : SeqState} {bytes : Bytes} {rest : List Tick}
    (ha : s.agenda = .move k (.start bytes) :: rest) (hc : s.insts[k]? = some c) (hb : c.phase ≠ .busy)
    (haccepts : s.cfg.accepts bytes.length = true) :
    step s = .next { s with
      insts := s.insts.set k (beginMessage bytes), sel := k, agenda := rest, resp := .nothing } :=
  (step_of_move ha).trans (exec_start (s := { s with agenda := rest, sel := k }) hc hb haccepts)

theorem step_seqStep {s : State} {k : Nat} {c : SeqState} {rest : List Tick}
    (ha : s.agenda = .move k .seqStep :: rest) (hc : s.insts[k]? = some c) (hb : c.phase = .busy) :
    step s = .next { s with
      insts := s.insts.set k (advance c), sel := k, agenda := rest
      resp := .group (issue c).word (group (issue c).word) } :=
  (step_of_move ha).trans (exec_step (s := { s with agenda := rest, sel := k }) hc hb)

theorem step_read {s : State} {k : Nat} {c : SeqState} {rest : List Tick}
    (ha : s.agenda = .move k .read :: rest) (hc : s.insts[k]? = some c) (hd : c.phase = .done) :
    step s = .next { s with sel := k, agenda := rest, resp := .output c.out } :=
  (step_of_move ha).trans (exec_read (s := { s with agenda := rest, sel := k }) hc hd)

/-- The STEPs that end a message, and the READ after them, all on instance `k`. -/
theorem run_steps_then_read {s : State} {k n : Nat} {c : SeqState} {rest : List Tick} (hc : s.insts[k]? = some c)
    (hbusy : ∀ j, j < n → (advance^[j] c).phase = .busy) (hdone : (advance^[n] c).phase = .done)
    (ha : s.agenda = List.replicate n (.move k .seqStep) ++ .move k .read :: rest) :
    Host.Core.run Sys2Proof.core (n + 1) s = .next { s with
      insts := s.insts.set k (advance^[n] c), sel := k, agenda := rest, resp := .output (advance^[n] c).out } := by
  induction n generalizing s c with
  | zero =>
    have hsame : s.insts.set k c = s.insts := by
      obtain ⟨hk, rfl⟩ := List.getElem?_eq_some_iff.mp hc
      exact List.set_getElem_self hk
    rw [run_succ (M := Sys2Proof.core) 0 (step_read ha hc hdone), Function.iterate_zero_apply, hsame]
    rfl
  | succ n ih =>
    have hadv : (s.insts.set k (advance c))[k]? = some (advance c) :=
      List.getElem?_set_self (List.getElem?_eq_some_iff.mp hc).1
    rw [run_succ (M := Sys2Proof.core) _ (step_seqStep ha hc (hbusy 0 n.zero_lt_succ)),
      ih hadv (fun j hj => hbusy (j + 1) (Nat.succ_lt_succ hj)) hdone rfl, List.set_set, Function.iterate_succ_apply]

/-- Settles O48: the START leaves the record of a message begun, whose STEPs are those of R115. -/
theorem messageReturnsEncoding : Obligations.MessageReturnsEncoding := by
  intro s k c bytes rest hc hb haccepts ha
  have hagenda : s.agenda = .move k (.start bytes) ::
      (List.replicate (bytes.length / 3 + 1) (.move k .seqStep) ++ .move k .read :: rest) := by
    simpa [messageAgenda] using ha
  have hbegun : (s.insts.set k (beginMessage bytes))[k]? = some (beginMessage bytes) :=
    List.getElem?_set_self (List.getElem?_eq_some_iff.mp hc).1
  have hbusy : ∀ j, j < bytes.length / 3 + 1 → (advance^[j] (beginMessage bytes)).phase = .busy := fun j hj => by
    rw [iterate_advance_of_le (Nat.le_of_lt_succ hj)]
    rfl
  have hlast := iterate_advance_last bytes
  rw [run_succ (M := Sys2Proof.core) _ (step_start hagenda hc hb haccepts),
    run_steps_then_read hbegun hbusy (hlast ▸ rfl) rfl, hlast, List.set_set]
  rfl

end Sys2Proof.Machine
end

section
/-! PROOFS of the family 60_exceptions.md: the closed list of outcomes (R130, R131). -/
namespace Sys2Proof.Machine

/-! ### A refused instruction -/

/-- On an instance that does not exist, no transaction is run. -/
theorem onInst_none {s : State} (h : s.insts[s.sel]? = none) (f : SeqState → Host.Outcome State Fault Refusal) :
    onInst s f = .refused .noSuchInstance := by
  simp [onInst, h]

/-- An instruction on an instance that does not exist is refused, whatever it is (R7, log 14). -/
theorem exec_of_absent {s : State} (h : s.insts[s.sel]? = none) (i : Instr) : exec i s = .refused .noSuchInstance := by
  cases i with
  | enc3 | enc2 | enc1 | enc0 | start | step | read => exact onInst_none h _
  | encode bytes => exact onInst_none (by simpa using h) _

/-- A refused instruction has no instance to run on, or the record of its instance refuses its effect. -/
theorem exec_refused {i : Instr} {s : State} {r : Refusal} (h : exec i s = .refused r) :
    (r = .noSuchInstance ∧ s.insts.length ≤ s.sel) ∨
      ∃ c, s.insts[s.sel]? = some c ∧ effect s.cfg c i = .error r := by
  cases hc : s.insts[s.sel]? with
  | none =>
    rw [exec_of_absent hc] at h
    exact .inl ⟨(Host.Outcome.refused.inj h).symm, List.getElem?_eq_none_iff.mp hc⟩
  | some c =>
    rw [exec_eq_conclude hc] at h
    match he : effect s.cfg c i with
    | .ok (d, r') =>
      rw [he] at h
      cases h
    | .error e =>
      rw [he] at h
      exact .inr ⟨c, rfl, he.trans (congrArg _ (Host.Outcome.refused.inj h))⟩

/-- R105: a group command is answered whatever the record, so it is never refused. -/
theorem effect_ne_error_of_isGroupCommand {i : Instr} (hi : i.isGroupCommand = true) (cfg : Config) (c : SeqState)
    (r : Refusal) : effect cfg c i ≠ .error r := by
  cases i with
  | enc3 | enc2 | enc1 | enc0 => exact nofun
  | start | step | read | encode => cases hi

/-- R112, R113, R114, R116: the moves that the record of an existing instance refuses, each with its reason. -/
theorem effect_fetchInstr_error {cfg : Config} {c : SeqState} {m : Move} {r : Refusal}
    (h : effect cfg c (fetchInstr m) = .error r) :
    (r = .tooLong ∧ c.phase ≠ .busy ∧ ∃ bytes n, m = .start bytes ∧ cfg.maxInputLen = some n ∧ n < bytes.length) ∨
      (r = .startWhileBusy ∧ c.phase = .busy ∧ ∃ bytes, m = .start bytes) ∨
      (r = .readOutsideDone ∧ c.phase ≠ .done ∧ m = .read) ∨
      (r = .stepOutsideBusy ∧ c.phase ≠ .busy ∧ m = .seqStep) := by
  cases m with
  | port w =>
    obtain ⟨-, hgroup, -⟩ := everyWordIsOneCommand w
    exact absurd h (effect_ne_error_of_isGroupCommand hgroup cfg c r)
  | start bytes =>
    simp only [fetchInstr, effect] at h
    split_ifs at h with hb ha
    · cases h
      exact .inr (.inl ⟨rfl, hb, bytes, rfl⟩)
    · cases h
      rw [Config.accepts_iff] at ha
      push Not at ha
      obtain ⟨n, hn, hlt⟩ := ha
      exact .inl ⟨rfl, hb, bytes, n, rfl, hn, hlt⟩
  | seqStep =>
    simp only [fetchInstr, effect] at h
    split_ifs at h with hb
    cases h
    exact .inr (.inr (.inr ⟨rfl, hb, rfl⟩))
  | read =>
    simp only [fetchInstr, effect] at h
    split_ifs at h with hd
    cases h
    exact .inr (.inr (.inl ⟨rfl, hd, rfl⟩))
  | encode => cases h

/-! ### A refused step -/

/-- A refused step is a refused move of the agenda: a reset and waiting answer a next state, and so does the STEP of
a BUSY sequencer (R131: in BUSY, STEP is always enabled). -/
theorem step_refused {s : State} {r : Refusal} (h : step s = .refused r) :
    ∃ k m rest, s.agenda = .move k m :: rest ∧ exec (fetchInstr m) { s with agenda := rest, sel := k } = .refused r := by
  unfold step at h
  obtain ⟨p, rest, -, hf⟩ | ⟨k, m, rest, ha, hf⟩ | ⟨k, -, hk, hf⟩ | ⟨-, -, hf⟩ := fetch_cases s <;> rw [hf] at h
  · cases h
  · exact ⟨k, m, rest, ha, h⟩
  · obtain ⟨c, hc, hb⟩ := firstBusy_some hk
    exact absurd ((exec_step (s := { s with sel := k }) hc hb).symm.trans h) nofun
  · cases h

/-- Settles O59: there is no fault to answer, and a refused step is a refused move, whose instance is absent or has a
record that refuses it. -/
theorem outcomesAreClosed : Obligations.OutcomesAreClosed := by
  refine fun s => ⟨nofun, fun r h => ?_⟩
  obtain ⟨k, m, rest, ha, hx⟩ := step_refused h
  exact ⟨k, m, rest, ha, (exec_refused hx).imp_right fun ⟨c, hc, he⟩ => ⟨c, hc, effect_fetchInstr_error he⟩⟩

end Sys2Proof.Machine
end

section
/-! PROOFS of the family 70_reset_and_hazards.md: reset and what follows it (R150 to R152), and the sequencers left
alone (R159). -/
namespace Sys2Proof.Machine

/-! ### With an empty agenda (log 2) -/

theorem firstBusy_eq_some {insts : List SeqState} {k : Nat} {c : SeqState} (hc : insts[k]? = some c)
    (hb : c.phase = .busy) (hlow : ∀ j d, j < k → insts[j]? = some d → d.phase ≠ .busy) :
    firstBusy insts = some k := by
  obtain ⟨hk, rfl⟩ := List.getElem?_eq_some_iff.mp hc
  refine List.findIdx?_eq_some_iff_getElem.mpr ⟨hk, by simpa using hb, fun j hj => ?_⟩
  simpa using hlow j insts[j] hj (List.getElem?_eq_getElem _)

theorem firstBusy_eq_none {insts : List SeqState} (h : ∀ c ∈ insts, c.phase ≠ .busy) : firstBusy insts = none :=
  List.findIdx?_eq_none_iff.mpr fun c hc => by simpa using h c hc

theorem step_of_firstBusy {s : State} {k : Nat} (ha : s.agenda = []) (hk : firstBusy s.insts = some k) :
    step s = exec .step { s with sel := k } := by
  simp [step, fetch, ha, hk]

theorem step_of_none_busy {s : State} (ha : s.agenda = []) (hk : firstBusy s.insts = none) : step s = .next s := by
  simp [step, fetch, ha, hk]

/-- Settles O43: the lowest BUSY instance is the one `firstBusy` finds. -/
theorem sequencersMoveAlone : Obligations.SequencersMoveAlone := fun _ ha =>
  ⟨fun _ _ hc hb hlow => step_of_firstBusy ha (firstBusy_eq_some hc hb hlow),
    fun hnone => step_of_none_busy ha (firstBusy_eq_none hnone)⟩

/-! ### Reset (R150 to R152) -/

/-- Settles O44: every instance is at its reset values, so none is BUSY and the machine waits. -/
theorem waitsAfterReset : Obligations.WaitsAfterReset := by
  intro cfg
  have hidle : ∀ c ∈ (State.resetWith cfg).insts, c.phase = .idle := fun c hc => by
    rw [List.eq_of_mem_replicate hc]
    rfl
  obtain ⟨-, hwait⟩ := sequencersMoveAlone (State.resetWith cfg) rfl
  exact ⟨hwait fun c hc => by simp [hidle c hc], hidle⟩

/-- Settles O46: the reset is settled whatever is pending, and it maps every record to the same values. -/
theorem resetClearsEveryInstance : Obligations.ResetClearsEveryInstance := by
  intro s pending rest ha
  rw [step_of_reset ha, State.applyReset, List.map_const']
  rfl

/-- Settles O47: after the reset the instance is in IDLE, so the message runs as from any state outside BUSY. -/
theorem messageAfterReset : Obligations.MessageAfterReset := by
  intro s k bytes pending rest hk haccepts ha
  have hreset := resetClearsEveryInstance s pending (messageAgenda k bytes ++ rest) ha
  refine ⟨_, (run_succ (M := Sys2Proof.core) _ hreset).trans
    (messageReturnsEncoding _ k SeqState.reset bytes rest ?_ nofun haccepts rfl), rfl, rfl⟩
  exact List.getElem?_replicate_of_lt hk

/-! ### The STEPs a message still takes (R115) -/

theorem stepsLeft_of_busy {c : SeqState} (h : c.phase = .busy) : c.stepsLeft = (c.inp.length - c.pos) / 3 + 1 := by
  simp [SeqState.stepsLeft, h]

theorem stepsLeft_of_not_busy {c : SeqState} (h : c.phase ≠ .busy) : c.stepsLeft = 0 := by
  cases hp : c.phase with
  | idle | done => simp [SeqState.stepsLeft, hp]
  | busy => exact absurd hp h

/-- R114: with fewer than three bytes left a STEP ends the message, wherever `pos` stands (log 15). -/
theorem issue_phase_of_lt_three {c : SeqState} (h : c.inp.length < c.pos + 3) : (issue c).phase = .done := by
  by_cases hle : c.pos ≤ c.inp.length
  · obtain ⟨hphase, -⟩ := issue_of_lt_three hle h
    exact hphase
  · rw [issue_none (List.drop_of_length_le (Nat.le_of_not_le hle))]

/-- R115: each STEP of a message takes one off the STEPs left; after an ENC3 there is at least one more. -/
theorem stepsLeft_advance {c : SeqState} (hb : c.phase = .busy) : c.stepsLeft = (advance c).stepsLeft + 1 := by
  rw [stepsLeft_of_busy hb]
  by_cases hfull : c.pos + 3 ≤ c.inp.length
  · obtain ⟨hphase, hpos, -⟩ := issue_of_three_le hfull
    rw [stepsLeft_of_busy (c := advance c) hphase, advance_inp, advance_pos, hpos]
    omega
  · have hdone := issue_phase_of_lt_three (Nat.lt_of_not_le hfull)
    rw [stepsLeft_of_not_busy (c := advance c) (by simp [hdone])]
    omega

/-- The record once its sequencer has taken all the STEPs its message still takes. -/
def SeqState.finished (c : SeqState) : SeqState := advance^[c.stepsLeft] c

theorem finished_of_not_busy {c : SeqState} (h : c.phase ≠ .busy) : c.finished = c := by
  rw [SeqState.finished, stepsLeft_of_not_busy h, Function.iterate_zero_apply]

theorem finished_advance {c : SeqState} (hb : c.phase = .busy) : (advance c).finished = c.finished := by
  rw [SeqState.finished, SeqState.finished, stepsLeft_advance hb, Function.iterate_succ_apply]

/-- R52: the STEPs of a message keep IN. -/
theorem finished_inp (c : SeqState) : c.finished.inp = c.inp := by
  unfold SeqState.finished
  induction c.stepsLeft with
  | zero => rfl
  | succ n ih => rw [Function.iterate_succ_apply', advance_inp, ih]

/-- R115: the last STEP of a message leads to DONE. -/
theorem finished_phase_of_busy {c : SeqState} (hb : c.phase = .busy) : c.finished.phase = .done := by
  generalize hn : c.stepsLeft = n
  induction n generalizing c with
  | zero => simp [stepsLeft_of_busy hb] at hn
  | succ n ih =>
    rw [stepsLeft_advance hb, Nat.succ.injEq] at hn
    rw [← finished_advance hb]
    by_cases hfull : c.pos + 3 ≤ c.inp.length
    · obtain ⟨hphase, -⟩ := issue_of_three_le hfull
      exact ih hphase hn
    · have hdone := issue_phase_of_lt_three (Nat.lt_of_not_le hfull)
      rw [finished_of_not_busy (by simp [hdone]), advance_phase, hdone]

theorem finished_phase (c : SeqState) : c.finished.phase = if c.phase = .busy then .done else c.phase := by
  split_ifs with hb
  · exact finished_phase_of_busy hb
  · rw [finished_of_not_busy hb]

/-! ### The sequencers left alone (R159) -/

/-- A natural measure summed over a list falls by one where it falls by one at one entry. -/
theorem sum_map_set {α : Type} {f : α → Nat} {l : List α} {k : Nat} {c d : α} (hc : l[k]? = some c)
    (hf : f c = f d + 1) : (l.map f).sum = ((l.set k d).map f).sum + 1 := by
  induction l generalizing k with
  | nil => simp at hc
  | cons a l ih =>
    cases k with
    | zero =>
      obtain rfl : a = c := by simpa using hc
      simp only [List.set_cons_zero, List.map_cons, List.sum_cons]
      omega
    | succ k =>
      have := ih (k := k) (by simpa using hc)
      simp only [List.set_cons_succ, List.map_cons, List.sum_cons]
      omega

theorem map_set_eq_map {α β : Type} {f : α → β} {l : List α} {k : Nat} {c d : α} (hc : l[k]? = some c)
    (hf : f d = f c) : (l.set k d).map f = l.map f := by
  obtain ⟨hk, rfl⟩ := List.getElem?_eq_some_iff.mp hc
  rw [List.map_set, hf, ← List.getElem_map f (h := by simpa using hk), List.set_getElem_self]

/-- With nothing on the agenda no instance is BUSY, or the next step advances one that is. -/
theorem step_of_empty_agenda {s : State} (ha : s.agenda = []) :
    (∀ c ∈ s.insts, c.phase ≠ .busy) ∨
      ∃ k c t, s.insts[k]? = some c ∧ c.phase = .busy ∧ step s = .next t ∧ t.agenda = [] ∧
        t.insts = s.insts.set k (advance c) := by
  cases hk : firstBusy s.insts with
  | none => exact .inl fun c hc => firstBusy_none hk hc
  | some k =>
    obtain ⟨c, hc, hb⟩ := firstBusy_some hk
    have hstep := (step_of_firstBusy ha hk).trans (exec_step (s := { s with sel := k }) hc hb)
    exact .inr ⟨k, c, _, hc, hb, hstep, ha, rfl⟩

/-- R159, R57: whatever the order, as many steps as there are STEPs left finish every instance's own message. -/
theorem run_stepsLeft {s : State} (ha : s.agenda = []) :
    ∃ t, Host.Core.run Sys2Proof.core (s.insts.map SeqState.stepsLeft).sum s = .next t ∧
      t.insts = s.insts.map SeqState.finished := by
  induction hn : (s.insts.map SeqState.stepsLeft).sum using Nat.strong_induction_on generalizing s with
  | h n ih =>
    obtain hnone | ⟨k, c, u, hc, hb, hu, hua, hinsts⟩ := step_of_empty_agenda ha
    · have hzero : n = 0 :=
        hn ▸ List.sum_eq_zero (List.forall_mem_map.mpr fun c hc => stepsLeft_of_not_busy (hnone c hc))
      have hsame : s.insts.map SeqState.finished = s.insts :=
        (List.map_congr_left fun c hc => finished_of_not_busy (hnone c hc)).trans (List.map_id' s.insts)
      exact ⟨s, by rw [hzero]; rfl, hsame.symm⟩
    · have hless := sum_map_set hc (stepsLeft_advance hb)
      rw [← hinsts, hn] at hless
      obtain ⟨t, ht, htinsts⟩ := ih _ (by omega) hua rfl
      refine ⟨t, ?_, by rw [htinsts, hinsts, map_set_eq_map hc (finished_advance hb)]⟩
      rw [hless, run_succ (M := Sys2Proof.core) _ hu, ht]

/-- Settles O49: every instance ends as its own message finished. -/
theorem everyMessageReachesDone : Obligations.EveryMessageReachesDone := by
  intro s ha
  obtain ⟨t, ht, hinsts⟩ := run_stepsLeft ha
  refine ⟨t, ht, by simp [hinsts], fun k c hc => ⟨c.finished, ?_, finished_phase c, finished_inp c⟩⟩
  simp [hinsts, hc]

end Sys2Proof.Machine
end

section
/-! PROOFS of the family 'other': the refusal of an instance that does not exist (R7, log 14), and the source's known
vectors (95_test_vectors.md, section 1.1). -/
namespace Sys2Proof.Machine

/-- Settles O30: a selection at or above the number of instances finds no record to run on. -/
theorem noSuchInstanceRefused : Obligations.NoSuchInstanceRefused := fun i _ h =>
  exec_of_absent (List.getElem?_eq_none h) i

/-- R118: the group "foo" is encoded as "Zm9v", whatever follows it. -/
theorem encodeBytes_foo_append (t : Bytes) :
    encodeBytes (0x66 :: 0x6F :: 0x6F :: t) = [0x5A, 0x6D, 0x39, 0x76] ++ encodeBytes t := by
  have hfoo : emitted (group (gcw 3 0x66 0x6F 0x6F)) = [0x5A, 0x6D, 0x39, 0x76] := by decide
  rw [encodeBytes_full, hfoo]

/-- Settles O35: an input of one group is evaluated; a longer one begins with the group "foo", and the group that follows
is evaluated. -/
theorem knownVectors : Obligations.KnownVectors := by
  refine ⟨encodeBytes_nil, ?f, ?fo, ?foo, ?foob, ?fooba, ?foobar⟩
  case f => rw [encodeBytes_one]; decide
  case fo => rw [encodeBytes_two]; decide
  case foo => rw [encodeBytes_foo_append, encodeBytes_nil, List.append_nil]
  case foob => rw [encodeBytes_foo_append, encodeBytes_one]; decide
  case fooba => rw [encodeBytes_foo_append, encodeBytes_two]; decide
  case foobar => rw [encodeBytes_foo_append, encodeBytes_full]; decide

end Sys2Proof.Machine
end
